-- ==== Sys2Proof/Word.lean ====
section
/-! DEFINITION. The word types: the two symbol types, the two beat types and their sequences
(spec/00_scope.md R9, R10, R11; spec/30_encoding.md R71, R72, R79). -/

namespace Sys2Proof

/-- A bit symbol, BITW = 1 (R9, R11, R79): '0' is 0 and '1' is 1. -/
abbrev Bit := BitVec 1

/-- A byte symbol, BYTEW = 8, bit 7 most significant (R9, R11). -/
abbrev Byte := BitVec 8

/-- An input beat of a bit unit, format BITBEAT: `end` in bit 1, `data` in bit 0 (R71). -/
abbrev BitBeat := BitVec 2

/-- An input beat of a character unit, format BYTEBEAT: `end` in bit 8, `data` in bits 7 to 0 (R72). -/
abbrev ByteBeat := BitVec 9

/-- An ordered sequence of bits, position 0 first, unbounded (R10, the glossary). -/
abbrev BitSequence := List Bit

/-- An ordered sequence of bytes, position 0 first, unbounded (R10, the glossary). -/
abbrev ByteSequence := List Byte

end Sys2Proof
end

