-- ==== Sys2Proof/Config.lean ====
section
/-! DEFINITION. The constants of the block (spec/00_scope.md R9, spec/30_encoding.md R77) and the form of
the configuration inputs (spec/10_state.md R34). No value of the spec is left free, so nothing here is
opaque. `OFFW` is not a constant: the model counts in unbounded natural numbers (R9, decision D9, log 8),
and the packing of an output beat takes OFFW as an argument. -/

namespace Sys2Proof

/-- The two configuration inputs of a character unit, `cfg.flag` and `cfg.esc` (R34): 8 bits each, every
pair of different values legal. -/
structure CharCfg where
  /-- `flag_byte`. -/
  flag : Byte
  /-- `escape_byte`. -/
  esc : Byte
  deriving DecidableEq, Repr

/-- `RUN`: the number of consecutive ones after which the bit stuffer inserts a zero (R9, R77). -/
def Config.RUN : Nat := 5

/-- The reference values FLAG = 0x7E and ESC = 0x7D (R77). -/
def Config.reference : CharCfg := { flag := 0x7E#8, esc := 0x7D#8 }

/-- `BITFLAG`, the outer flag of a bit-oriented frame, eight symbols (R9, R77, spec/90_conflicts.md C1).
The caller adds and strips it; no unit reads it (R84). -/
def Config.BITFLAG : BitSequence := [0, 1, 1, 1, 1, 1, 1, 0]

end Sys2Proof
end

