-- ==== Sys2Proof/Syntax.lean ====
section
/-! DEFINITION. What crosses the ports: ports, beats, input events, output events, results, and the ONE
inductive of instructions, one constructor per row of spec/opcode_table.json
(spec/00_scope.md R12 to R14; spec/30_encoding.md R70, R76, R86). -/

namespace Sys2Proof

/-- The four units, each named by its input port (spec/00_scope.md R3). -/
inductive Port where
  /-- The bit stuffer. -/
  | bs
  /-- The bit destuffer. -/
  | bd
  /-- The character stuffer. -/
  | cs
  /-- The character destuffer. -/
  | cd
  deriving DecidableEq, Repr

/-- A beat on the input port of one unit. The port, not a bit of the beat, says whose event it is (R70). -/
inductive PortBeat where
  /-- A beat on `BS.in`. -/
  | bs (w : BitBeat)
  /-- A beat on `BD.in`. -/
  | bd (w : BitBeat)
  /-- A beat on `CS.in`. -/
  | cs (w : ByteBeat)
  /-- A beat on `CD.in`. -/
  | cd (w : ByteBeat)
  deriving DecidableEq, Repr

/-- The port a beat is on. -/
def PortBeat.port : PortBeat → Port
  | .bs _ => .bs
  | .bd _ => .bd
  | .cs _ => .cs
  | .cd _ => .cd

/-- An input event: `SYM v`, or `END`, the input sequence of this transaction is complete (R12). -/
inductive InEvent (α : Type) where
  /-- `SYM v`. -/
  | sym (v : α)
  /-- `END`. -/
  | fin
  deriving DecidableEq, Repr

/-- The two error kinds, and no others (spec/60_exceptions.md R210). -/
inductive ErrKind where
  /-- MF: missing stuffing bit, truncated escape, missing delimiter. -/
  | malformedFrame
  /-- PV: a reserved pattern leaked unescaped into the payload. -/
  | protocolViolation
  deriving DecidableEq, Repr

/-- An output event (R12). `done` and `abort` are the two terminators. -/
inductive OutEvent (α : Type) where
  /-- `OUT v`: one symbol. -/
  | out (v : α)
  /-- `DONE`: the transaction ended without error. -/
  | done
  /-- `ABORT(k, off)`: the transaction failed, its `OUT` events are void. -/
  | abort (k : ErrKind) (off : Nat)
  deriving DecidableEq, Repr

/-- The result of a transaction (R14). -/
inductive Result (α : Type) where
  /-- `ok(s)`. -/
  | ok (s : List α)
  /-- `fail(k, off)`. -/
  | fail (k : ErrKind) (off : Nat)
  deriving DecidableEq, Repr

/-- The instructions: the eight input events (R70) and the four transactions (R86), one constructor per
row of spec/opcode_table.json. -/
inductive Instr where
  /-- `BS.SYM v` (R101). -/
  | bsSym (v : Bit)
  /-- `BS.END` (R102). -/
  | bsEnd
  /-- `BD.SYM v` (R121). -/
  | bdSym (v : Bit)
  /-- `BD.END` (R122). -/
  | bdEnd
  /-- `CS.SYM v` (R141). -/
  | csSym (v : Byte)
  /-- `CS.END` (R142). -/
  | csEnd
  /-- `CD.SYM v` (R161). -/
  | cdSym (v : Byte)
  /-- `CD.END` (R162). -/
  | cdEnd
  /-- `bitStuff(x)` (R86, R100). -/
  | bitStuff (x : BitSequence)
  /-- `bitDestuff(y)` (R86, R120). -/
  | bitDestuff (y : BitSequence)
  /-- `charStuff(x)` (R86, R140). -/
  | charStuff (x : ByteSequence)
  /-- `charDestuff(s)` (R86, R160). -/
  | charDestuff (s : ByteSequence)
  deriving DecidableEq, Repr

/-- The unit an instruction belongs to (R70, R86). -/
def Instr.port : Instr → Port
  | .bsSym _ => .bs
  | .bsEnd => .bs
  | .bdSym _ => .bd
  | .bdEnd => .bd
  | .csSym _ => .cs
  | .csEnd => .cs
  | .cdSym _ => .cd
  | .cdEnd => .cd
  | .bitStuff _ => .bs
  | .bitDestuff _ => .bd
  | .charStuff _ => .cs
  | .charDestuff _ => .cd

/-- The number of symbols an instruction carries: one for `SYM`, none for `END`, n for a transaction. -/
def Instr.symbols : Instr → Nat
  | .bsSym _ => 1
  | .bsEnd => 0
  | .bdSym _ => 1
  | .bdEnd => 0
  | .csSym _ => 1
  | .csEnd => 0
  | .cdSym _ => 1
  | .cdEnd => 0
  | .bitStuff x => x.length
  | .bitDestuff y => y.length
  | .charStuff x => x.length
  | .charDestuff s => s.length

/-- The port has one beat length: 2 bits on a bit unit, 9 on a character unit (R70). -/
def Port.width : Port → Nat
  | .bs => 2
  | .bd => 2
  | .cs => 9
  | .cd => 9

end Sys2Proof
end

