-- ==== Sys2Proof/WellFormed.lean ====
section
/-! DEFINITION. The checks on what the outside hands the model. An instruction needs none beyond its
type: a symbol outside {0, 1} cannot be expressed on a 1-bit port, every byte is a legal symbol, and every
length is legal (spec/30_encoding.md R79, spec/20_memory.md R58, spec/42_char_stuffer.md R141). What can be
ill-formed is a word that is no beat of its port, a configuration, and an offset too wide for a realisation. -/

namespace Sys2Proof

/-- Every instruction that can be written is well formed; stated per constructor, so that a new one cannot
slip past. -/
def Instr.wf : Instr → Bool
  | .bsSym _ => true
  | .bsEnd => true
  | .bdSym _ => true
  | .bdEnd => true
  | .csSym _ => true
  | .csEnd => true
  | .cdSym _ => true
  | .cdEnd => true
  | .bitStuff _ => true
  | .bitDestuff _ => true
  | .charStuff _ => true
  | .charDestuff _ => true

/-- The one constraint on the configuration inputs: `cfg.flag != cfg.esc`
(spec/10_state.md R34, spec/93_implementation_defined.md U1). -/
def CharCfg.wf (c : CharCfg) : Bool := c.flag != c.esc

/-- A number is a beat of port `p` when it fits the port's one beat length (R70). -/
def fitsPort (p : Port) (w : Nat) : Bool := decide (w < 2 ^ p.width)

/-- An output event fits a realisation with `offw` bits of offset (spec/93_implementation_defined.md U3). -/
def OutEvent.fits {α : Type} (offw : Nat) : OutEvent α → Bool
  | .out _ => true
  | .done => true
  | .abort _ off => decide (off < 2 ^ offw)

end Sys2Proof
end

