-- ==== Sys2Proof/Decode.lean ====
section
/-! DEFINITION. Decoding and encoding: input beats to events and back (spec/30_encoding.md R71 to R74), the
event table as rows (R76), transactions (R86), output beats (R75, R80), and the host's reading of a
table word. -/

namespace Sys2Proof

/-! ## Fields of an input beat -/

/-- BITBEAT bit 1, `end` (R71). -/
def bitEndField (w : BitBeat) : BitVec 1 := w.extractLsb' 1 1

/-- BITBEAT bit 0, `data` (R71). -/
def bitDataField (w : BitBeat) : Bit := w.extractLsb' 0 1

/-- BYTEBEAT bit 8, `end` (R72). -/
def byteEndField (w : ByteBeat) : BitVec 1 := w.extractLsb' 8 1

/-- BYTEBEAT bits 7 to 0, `data` (R72). -/
def byteDataField (w : ByteBeat) : Byte := w.extractLsb' 0 8

/-! ## Input beats to events (R73: total) -/

/-- `if beat.end == 0 then SYM(beat.data) else END`, on a bit unit (R73). -/
def decodeBitBeat (w : BitBeat) : InEvent Bit :=
  if bitEndField w = 0#1 then .sym (bitDataField w) else .fin

/-- `if beat.end == 0 then SYM(beat.data) else END`, on a character unit (R73). -/
def decodeByteBeat (w : ByteBeat) : InEvent Byte :=
  if byteEndField w = 0#1 then .sym (byteDataField w) else .fin

/-- The event a beat is, on its port (R70, R76). -/
def decodeBeat : PortBeat → Instr
  | .bs w => match decodeBitBeat w with
    | .sym v => .bsSym v
    | .fin => .bsEnd
  | .bd w => match decodeBitBeat w with
    | .sym v => .bdSym v
    | .fin => .bdEnd
  | .cs w => match decodeByteBeat w with
    | .sym v => .csSym v
    | .fin => .csEnd
  | .cd w => match decodeByteBeat w with
    | .sym v => .cdSym v
    | .fin => .cdEnd

/-- Whether a beat is `END`. -/
def PortBeat.isEnd : PortBeat → Bool
  | .bs w => bitEndField w != 0#1
  | .bd w => bitEndField w != 0#1
  | .cs w => byteEndField w != 0#1
  | .cd w => byteEndField w != 0#1

/-- Why a word or a list of beats is not read. -/
inductive DecodeError where
  /-- The number has a bit above its port's beat length (R70). -/
  | wordTooWide
  /-- There is no beat to read. -/
  | noBeat
  /-- The beats end before an `END`: such a transaction has no result (R249). -/
  | unclosed
  /-- A beat of another port stands inside the transaction. -/
  | otherPort
  deriving DecidableEq, Repr

/-- The beat that the number `w` is on port `p`; bits above the beat are dropped (`fitsPort` checks them). -/
def beatOf (p : Port) (w : Nat) : PortBeat :=
  match p with
  | .bs => .bs (BitVec.ofNat 2 w)
  | .bd => .bd (BitVec.ofNat 2 w)
  | .cs => .cs (BitVec.ofNat 9 w)
  | .cd => .cd (BitVec.ofNat 9 w)

/-- The instruction the number `w` is on port `p`, for every number: a beat of the port, or a rejection by
name. -/
def decodeWord (p : Port) (w : Nat) : Except DecodeError Instr :=
  if fitsPort p w then .ok (decodeBeat (beatOf p w)) else .error .wordTooWide

/-! ## Events and transactions to beats -/

/-- The beat of an event of a bit unit (R71); an `END` beat drives `data` to 0 (R74). -/
def encodeBitEvent : InEvent Bit → BitBeat
  | .sym v => 0#1 ++ v
  | .fin => 1#1 ++ 0#1

/-- The beat of an event of a character unit (R72); an `END` beat drives `data` to 0 (R74). -/
def encodeByteEvent : InEvent Byte → ByteBeat
  | .sym v => 0#1 ++ v
  | .fin => 1#1 ++ 0#8

/-- The beats of one transaction of a bit unit: every symbol in order, then `END` (R86). -/
def bitBeats (x : BitSequence) : List BitBeat :=
  x.map (fun v => encodeBitEvent (.sym v)) ++ [encodeBitEvent .fin]

/-- The beats of one transaction of a character unit: every symbol in order, then `END` (R86). -/
def byteBeats (x : ByteSequence) : List ByteBeat :=
  x.map (fun v => encodeByteEvent (.sym v)) ++ [encodeByteEvent .fin]

/-- The words of an instruction: one beat for an event, the expansion of R86 for a transaction. -/
def encode : Instr → List PortBeat
  | .bsSym v => [.bs (encodeBitEvent (.sym v))]
  | .bsEnd => [.bs (encodeBitEvent .fin)]
  | .bdSym v => [.bd (encodeBitEvent (.sym v))]
  | .bdEnd => [.bd (encodeBitEvent .fin)]
  | .csSym v => [.cs (encodeByteEvent (.sym v))]
  | .csEnd => [.cs (encodeByteEvent .fin)]
  | .cdSym v => [.cd (encodeByteEvent (.sym v))]
  | .cdEnd => [.cd (encodeByteEvent .fin)]
  | .bitStuff x => (bitBeats x).map .bs
  | .bitDestuff y => (bitBeats y).map .bd
  | .charStuff x => (byteBeats x).map .cs
  | .charDestuff s => (byteBeats s).map .cd

/-- The bit operand of an event of a bit unit. -/
def Instr.bitOperand : Instr → Option Bit
  | .bsSym v => some v
  | .bdSym v => some v
  | .bsEnd => none
  | .bdEnd => none
  | .csSym _ => none
  | .csEnd => none
  | .cdSym _ => none
  | .cdEnd => none
  | .bitStuff _ => none
  | .bitDestuff _ => none
  | .charStuff _ => none
  | .charDestuff _ => none

/-- The byte operand of an event of a character unit. -/
def Instr.byteOperand : Instr → Option Byte
  | .csSym v => some v
  | .cdSym v => some v
  | .bsSym _ => none
  | .bsEnd => none
  | .bdSym _ => none
  | .bdEnd => none
  | .csEnd => none
  | .cdEnd => none
  | .bitStuff _ => none
  | .bitDestuff _ => none
  | .charStuff _ => none
  | .charDestuff _ => none

/-- The transaction that a list of `SYM` events on port `p`, closed by `END`, is (R13, R86). -/
def transactionOf (p : Port) (es : List Instr) : Instr :=
  match p with
  | .bs => .bitStuff (es.filterMap Instr.bitOperand)
  | .bd => .bitDestuff (es.filterMap Instr.bitOperand)
  | .cs => .charStuff (es.filterMap Instr.byteOperand)
  | .cd => .charDestuff (es.filterMap Instr.byteOperand)

/-- The `SYM` events of port `p` up to the first `END`, and the beats after that `END` (R13). -/
def collectSyms (p : Port) : List PortBeat → Except DecodeError (List Instr × List PortBeat)
  | [] => .error .unclosed
  | b :: bs =>
    if b.port ≠ p then .error .otherPort
    else if b.isEnd then .ok ([], bs)
    else match collectSyms p bs with
      | .ok (es, rest) => .ok (decodeBeat b :: es, rest)
      | .error e => .error e

/-- The transaction at the head of a list of beats, and the beats after it. -/
def decodeTransaction (bs : List PortBeat) : Except DecodeError (Instr × List PortBeat) :=
  match bs with
  | [] => .error .noBeat
  | b :: _ =>
    match collectSyms b.port bs with
    | .ok (es, rest) => .ok (transactionOf b.port es, rest)
    | .error e => .error e

/-! ## The event table (R76) -/

/-- One row of the event table: a beat `w` of the port is the row's event when `w & mask == match`. -/
structure EventRow where
  /-- The row's name in spec/opcode_table.json. -/
  mnemonic : String
  /-- The port the beat is on. -/
  port : Port
  /-- `match`. -/
  pattern : Nat
  /-- `mask`. -/
  mask : Nat
  deriving DecidableEq, Repr

/-- The eight rows, in the table's order. -/
def eventTable : List EventRow :=
  [ ⟨"BS.SYM", .bs, 0b00, 0b10⟩, ⟨"BS.END", .bs, 0b10, 0b10⟩,
    ⟨"BD.SYM", .bd, 0b00, 0b10⟩, ⟨"BD.END", .bd, 0b10, 0b10⟩,
    ⟨"CS.SYM", .cs, 0x000, 0x100⟩, ⟨"CS.END", .cs, 0x100, 0x100⟩,
    ⟨"CD.SYM", .cd, 0x000, 0x100⟩, ⟨"CD.END", .cd, 0x100, 0x100⟩ ]

/-- `w & mask == match`, on the row's own port. -/
def EventRow.matchesWord (r : EventRow) (p : Port) (w : Nat) : Bool :=
  decide (r.port = p) && w &&& r.mask == r.pattern

/-- The mnemonic of an instruction, as spec/opcode_table.json spells it. -/
def Instr.mnemonic : Instr → String
  | .bsSym _ => "BS.SYM"
  | .bsEnd => "BS.END"
  | .bdSym _ => "BD.SYM"
  | .bdEnd => "BD.END"
  | .csSym _ => "CS.SYM"
  | .csEnd => "CS.END"
  | .cdSym _ => "CD.SYM"
  | .cdEnd => "CD.END"
  | .bitStuff _ => "bitStuff"
  | .bitDestuff _ => "bitDestuff"
  | .charStuff _ => "charStuff"
  | .charDestuff _ => "charDestuff"

/-! ## Output beats (R75, R80) -/

/-- An output beat, its fields most significant first; `n` is 1 for BITOUT and 8 for BYTEOUT. The offset is
unbounded here and OFFW bits wide once packed (R9). -/
structure OutBeat (n : Nat) where
  /-- 0: `OUT`; 1: a terminator. -/
  term : BitVec 1
  /-- The status code of R80. -/
  status : BitVec 2
  /-- The offset of an `ABORT`. -/
  offset : Nat
  /-- The symbol of an `OUT`. -/
  data : BitVec n
  deriving DecidableEq, Repr

/-- The status code of an error kind (R80, R211). -/
def ErrKind.code : ErrKind → BitVec 2
  | .malformedFrame => 1#2
  | .protocolViolation => 2#2

/-- The beat of an output event; unused fields are 0 (R75). -/
def encodeOut {n : Nat} : OutEvent (BitVec n) → OutBeat n
  | .out v => ⟨0#1, 0#2, 0, v⟩
  | .done => ⟨1#1, 0#2, 0, 0#n⟩
  | .abort k off => ⟨1#1, k.code, off, 0#n⟩

/-- The consumer's reading of an output beat: by `term` and, in a terminator, by `status`; the fields the
event does not use are ignored (spec/93_implementation_defined.md U10). Status 3 is no event: no unit
produces it (R80, U5). -/
def decodeOut {n : Nat} (b : OutBeat n) : Option (OutEvent (BitVec n)) :=
  if b.term = 0#1 then some (.out b.data)
  else if b.status = 0#2 then some .done
  else if b.status = 1#2 then some (.abort .malformedFrame b.offset)
  else if b.status = 2#2 then some (.abort .protocolViolation b.offset)
  else none

/-- The beat as bits, `term`, `status`, `offset`, `data` from the most significant down (R75), for a
realisation with `offw` bits of offset; none where the offset does not fit: a bounded model refuses rather
than report a wrapped offset (U3). -/
def packOut {n : Nat} (offw : Nat) (b : OutBeat n) : Option (BitVec (1 + 2 + offw + n)) :=
  if b.offset < 2 ^ offw then some (b.term ++ b.status ++ BitVec.ofNat offw b.offset ++ b.data) else none

/-- The fields of a packed output beat. -/
def unpackOut {n : Nat} (offw : Nat) (w : BitVec (1 + 2 + offw + n)) : OutBeat n :=
  { term := w.extractLsb' (2 + offw + n) 1
    status := w.extractLsb' (offw + n) 2
    offset := (w.extractLsb' n offw).toNat
    data := w.extractLsb' 0 n }

/-! ## The host's table words -/

/-- The beat that a word of spec/opcode_table.json is. Such a word carries no port (R70 leaves the choice of
the unit to the port), so a word of up to 8 bits is read on `BS.in` and a word of 9 to 16 bits on `CS.in`
(DESIGN CHOICE, log 4); a word that is no beat of that port is none. -/
def tableBeat (nbits w : Nat) : Option PortBeat :=
  if nbits = 0 then none
  else if nbits ≤ 8 then (if fitsPort .bs w then some (beatOf .bs w) else none)
  else if nbits ≤ 16 then (if fitsPort .cs w then some (beatOf .cs w) else none)
  else none

/-- The instruction the decoder reads from a table word (log 4). -/
def decodeTableWord (nbits w : Nat) : Option Instr := (tableBeat nbits w).map decodeBeat

end Sys2Proof
end

