-- ==== Sys2Proof/Machine/State.lean ====
section
/-! DEFINITION. The state of the block as plain data: the registers of the four units (spec/10_state.md
R20 to R32), the inputs they read (R34, spec/70_reset_and_hazards.md R240, spec/20_memory.md R54), the
eight streams (R51) and the schedule; the reasons a step can stop; the state after reset (R37, R240). -/

namespace Sys2Proof.Machine

/-- Why the machine stops with a fault. -/
inductive Fault where
  /-- Raised by the caller's connection of a stuffer's output to a destuffer (`connect`) when it meets an
  `ABORT` there, which no stuffer produces (R51, R215; spec/93_implementation_defined.md U5: the consumer
  treats it as an error). Safe: it stops where the spec has no such run (log 17). -/
  | abortFromStuffer
  deriving DecidableEq, Repr

/-- Why the model has no meaning for what it was given. -/
inductive Refusal where
  /-- Raised by no arm of this model: every instruction has its meaning. Safe. -/
  | notModelled (mnemonic : String)
  /-- Raised by every event of CS and CD when `cfg.flag == cfg.esc`
  (spec/93_implementation_defined.md U1, treatment `refuse`; R247). Safe (log 6). -/
  | flagEqualsEsc
  /-- Raised by the caller's change of `cfg.flag` or `cfg.esc` inside a transaction of that unit
  (spec/93_implementation_defined.md U2, treatment `refuse`; R247). Safe (log 7). -/
  | cfgChangedInTransaction
  deriving DecidableEq, Repr

/-- The error latches `BD.err` and `CD.err` (R26, R31); codes in R80 (log 16). -/
inductive Status where
  /-- `NONE`. -/
  | none
  /-- `MF`, MalformedFrame. -/
  | mf
  /-- `PV`, ProtocolViolation. -/
  | pv
  deriving DecidableEq, Repr

/-- The receiver state `CD.st` (R29); codes in R78 (log 16). -/
inductive RxState where
  /-- The leading FLAG is expected. -/
  | awaitFlag
  /-- Inside the frame, the last symbol no unpaired ESC. -/
  | inFrame
  /-- The escaped byte has not arrived. -/
  | escapeNext
  /-- An unescaped FLAG was consumed and nothing since. -/
  | done
  deriving DecidableEq, Repr

/-- The registers of BS (R23). -/
structure BsRegs where
  /-- `BS.cnt`, the run counter. -/
  cnt : BitVec 3
  deriving DecidableEq, Repr

/-- The registers of BD (R24 to R27). -/
structure BdRegs where
  /-- `BD.cnt`, the run counter. -/
  cnt : BitVec 3
  /-- `BD.idx`, the number of `SYM` events consumed in this transaction. -/
  idx : Nat
  /-- `BD.err`, the error latch. -/
  err : Status
  /-- `BD.eoff`, the offset latch. -/
  eoff : Nat
  deriving DecidableEq, Repr

/-- The registers of CS (R28). -/
structure CsRegs where
  /-- `CS.open`: the leading FLAG of this transaction has been emitted. -/
  opened : Bool
  deriving DecidableEq, Repr

/-- The registers of CD (R29 to R32). -/
structure CdRegs where
  /-- `CD.st`, the receiver state. -/
  st : RxState
  /-- `CD.idx`, the number of `SYM` events consumed in this transaction. -/
  idx : Nat
  /-- `CD.err`, the error latch. -/
  err : Status
  /-- `CD.eoff`, the offset latch. -/
  eoff : Nat
  /-- `CD.lastflag`: the most recent symbol was FLAG. -/
  lastflag : Bool
  deriving DecidableEq, Repr

/-- One unit with what stands at its ports: its registers, its input stream (beats delivered and not yet
consumed, oldest first), its output stream (events appended and not yet taken, oldest first), its reset
input, and whether the consumer of its output is ready (R20, R51, R54, R240). -/
structure Lane (ρ β α : Type) where
  /-- The registers. -/
  regs : ρ
  /-- The input stream. -/
  inp : List β
  /-- The output stream. -/
  out : List (OutEvent α)
  /-- The reset input, `true` while asserted (R240). -/
  rst : Bool
  /-- The consumer of the output stream is ready (R54). -/
  ready : Bool
  deriving DecidableEq, Repr

/-- A connection the caller may make (R60, R199). -/
inductive Link where
  /-- `BS.out` to `BD.in`. -/
  | bits
  /-- `CS.out` to `CD.in`. -/
  | bytes
  deriving DecidableEq, Repr

/-- What happens next: a unit's turn, or an action of the caller (log 2). -/
inductive Turn where
  /-- The unit takes its next input event, if it can. -/
  | unit (p : Port)
  /-- The caller delivers a beat on an input port. -/
  | send (b : PortBeat)
  /-- The consumer takes the oldest output event of a unit. -/
  | take (p : Port)
  /-- The caller moves the oldest output event of a stuffer to the destuffer's input (R199). -/
  | connect (l : Link)
  /-- The caller drives the configuration inputs of CS (R34, R63). -/
  | driveCsCfg (c : CharCfg)
  /-- The caller drives the configuration inputs of CD (R34, R63). -/
  | driveCdCfg (c : CharCfg)
  /-- The caller asserts or releases a unit's reset input (R240). -/
  | driveRst (p : Port) (asserted : Bool)
  /-- The consumer of a unit's output stream becomes ready or not ready (R54). -/
  | driveReady (p : Port) (ready : Bool)
  deriving DecidableEq, Repr

/-- The state of the block and of what stands at its ports. -/
structure State where
  /-- BS, the bit stuffer. -/
  bs : Lane BsRegs BitBeat Bit
  /-- BD, the bit destuffer. -/
  bd : Lane BdRegs BitBeat Bit
  /-- CS, the character stuffer. -/
  cs : Lane CsRegs ByteBeat Byte
  /-- CD, the character destuffer. -/
  cd : Lane CdRegs ByteBeat Byte
  /-- `CS.cfg.flag` and `CS.cfg.esc` as driven now (R34). -/
  csCfg : CharCfg
  /-- `CD.cfg.flag` and `CD.cfg.esc` as driven now (R34). -/
  cdCfg : CharCfg
  /-- The turns to come, next first; none: nothing happens (log 2). -/
  sched : List Turn
  deriving DecidableEq, Repr

/-- `init(BS)`: the reset value of BS's register (R37). -/
def BsRegs.reset : BsRegs := { cnt := 0 }

/-- `init(BD)`: the reset values of BD's registers (R37). -/
def BdRegs.reset : BdRegs := { cnt := 0, idx := 0, err := .none, eoff := 0 }

/-- `init(CS)`: the reset value of CS's register (R37). -/
def CsRegs.reset : CsRegs := { opened := false }

/-- `init(CD)`: the reset values of CD's registers (R37). -/
def CdRegs.reset : CdRegs := { st := .awaitFlag, idx := 0, err := .none, eoff := 0, lastflag := false }

/-- A unit just after reset: registers at their reset values; streams empty, reset released, consumer ready
(the last four are DESIGN CHOICE, log 1 and log 13). -/
def Lane.reset {ρ β α : Type} (init : ρ) : Lane ρ β α :=
  { regs := init, inp := [], out := [], rst := false, ready := true }

/-- The block right after reset (R37, R240). The configuration inputs have no reset value; the reference
values stand there (DESIGN CHOICE, log 5). Nothing is delivered and nothing is scheduled (log 1, log 2). -/
def State.reset : State :=
  { bs := .reset .reset
    bd := .reset .reset
    cs := .reset .reset
    cd := .reset .reset
    csCfg := Config.reference
    cdCfg := Config.reference
    sched := [] }

end Sys2Proof.Machine
end

