-- ==== Sys2Proof/Machine/Ops.lean ====
section
/-! DEFINITION. The shared operations: one reaction of a unit and its commit (spec/00_scope.md R7, R15), the
report of an error and the close of a transaction (spec/60_exceptions.md R217 to R220), consuming an input
event (spec/20_memory.md R53, R54), the caller's actions, the choice of what happens next, and the
consumer's reading of results (spec/00_scope.md R14). -/

namespace Sys2Proof.Machine

/-- The three outcomes of a step of this machine. -/
abbrev Outcome := Host.Outcome State Fault Refusal

/-- Go on with `f` after a next state; a stop stays the stop it is. -/
def andThen (o : Outcome) (f : State → Outcome) : Outcome :=
  match o with
  | .next s => f s
  | .fault r => .fault r
  | .refused r => .refused r

/-- The next state, where there is one. -/
def nextState (o : Outcome) : Option State :=
  match o with
  | .next s => some s
  | .fault _ => none
  | .refused _ => none

/-! ## One reaction (R7) -/

/-- What a unit does with one input event: its registers after, all written together, and the output events
it appends, in order (R7, R15). -/
structure Reaction (ρ α : Type) where
  /-- The registers after the step. -/
  regs : ρ
  /-- The output events of the step, first one first. -/
  outs : List (OutEvent α)
  deriving DecidableEq, Repr

/-- Write the registers and append the outputs as one action (R53); the input stream and the pins stay. -/
def Lane.react {ρ β α : Type} (l : Lane ρ β α) (r : Reaction ρ α) : Lane ρ β α :=
  { l with regs := r.regs, out := l.out ++ r.outs }

/-- `done()` after the given symbols, then `init(U)`: the close of a transaction without error (R15). -/
def closeOk {ρ α : Type} (init : ρ) (symbols : List α) : Reaction ρ α :=
  { regs := init, outs := symbols.map OutEvent.out ++ [.done] }

/-- `raise K(off)`, then `init(U)`: what taking an exception is in this hardware. The unit appends
`ABORT(k, off)` and is back in its reset state; nothing is saved and no mode changes (R211, R218). There is
no return: the next event starts a new transaction (R220). -/
def raise {ρ α : Type} (init : ρ) (k : ErrKind) (off : Nat) : Reaction ρ α :=
  { regs := init, outs := [.abort k off] }

/-- A step that emits the given symbols and goes on inside the transaction (R15 `emit`). -/
def emit {ρ α : Type} (regs : ρ) (symbols : List α) : Reaction ρ α :=
  { regs := regs, outs := symbols.map OutEvent.out }

/-- `cfg.flag != cfg.esc` is a premise of every rule of the character units; a step without it is refused
(spec/93_implementation_defined.md U1, R247; log 6). -/
def withDistinctCfg (c : CharCfg) (o : Outcome) : Outcome :=
  if c.wf then o else .refused .flagEqualsEsc

/-! ## Writing one part of the state -/

/-- Replace unit BS. -/
def State.setBs (s : State) (l : Lane BsRegs BitBeat Bit) : State := { s with bs := l }

/-- Replace unit BD. -/
def State.setBd (s : State) (l : Lane BdRegs BitBeat Bit) : State := { s with bd := l }

/-- Replace unit CS. -/
def State.setCs (s : State) (l : Lane CsRegs ByteBeat Byte) : State := { s with cs := l }

/-- Replace unit CD. -/
def State.setCd (s : State) (l : Lane CdRegs ByteBeat Byte) : State := { s with cd := l }

/-- Drive the configuration inputs of CS. -/
def State.setCsCfg (s : State) (c : CharCfg) : State := { s with csCfg := c }

/-- Drive the configuration inputs of CD. -/
def State.setCdCfg (s : State) (c : CharCfg) : State := { s with cdCfg := c }

/-- Replace the schedule. -/
def State.setSched (s : State) (ts : List Turn) : State := { s with sched := ts }

/-! ## Ports of one unit -/

/-- The next input event of a unit that can take one: the oldest beat, and the unit with that beat gone.
None while reset is asserted (R240), while the consumer is not ready, or when no event is there (R54). -/
def Lane.fetch {ρ β α : Type} (l : Lane ρ β α) : Option (β × Lane ρ β α) :=
  if l.rst then none
  else if l.ready then
    match l.inp with
    | [] => none
    | w :: ws => some (w, { l with inp := ws })
  else none

/-- The caller appends a beat to the input stream, behind every beat already there (R54, R56). -/
def Lane.deliver {ρ β α : Type} (l : Lane ρ β α) (w : β) : Lane ρ β α := { l with inp := l.inp ++ [w] }

/-- A beat put in front of the input stream of a unit that is out of reset and whose consumer is ready: the
event the unit takes next. -/
def Lane.place {ρ β α : Type} (l : Lane ρ β α) (w : β) : Lane ρ β α :=
  { l with inp := w :: l.inp, rst := false, ready := true }

/-- The consumer takes the oldest output event, if there is one (R54). -/
def Lane.take {ρ β α : Type} (l : Lane ρ β α) : Lane ρ β α := { l with out := l.out.tail }

/-- The caller drives the reset input. Asserting it writes every register with its reset value, emits
nothing and leaves both streams as they are (R240, R241; log 11). -/
def Lane.driveRst {ρ β α : Type} (init : ρ) (l : Lane ρ β α) (asserted : Bool) : Lane ρ β α :=
  { l with rst := asserted, regs := if asserted then init else l.regs }

/-- The consumer becomes ready or not ready (R54). -/
def Lane.driveReady {ρ β α : Type} (l : Lane ρ β α) (ready : Bool) : Lane ρ β α := { l with ready := ready }

/-! ## The caller's actions -/

/-- The caller delivers a beat on its port. -/
def deliver (b : PortBeat) (s : State) : State :=
  match b with
  | .bs w => s.setBs (s.bs.deliver w)
  | .bd w => s.setBd (s.bd.deliver w)
  | .cs w => s.setCs (s.cs.deliver w)
  | .cd w => s.setCd (s.cd.deliver w)

/-- The consumer of unit `p` takes its oldest output event. -/
def takeOut (p : Port) (s : State) : State :=
  match p with
  | .bs => s.setBs s.bs.take
  | .bd => s.setBd s.bd.take
  | .cs => s.setCs s.cs.take
  | .cd => s.setCd s.cd.take

/-- The input event a connected destuffer sees for a stuffer's output event: `OUT v` is `SYM v`, `DONE` is
`END` (R60, R199); an `ABORT` has no such event. -/
def forwardEvent {α : Type} : OutEvent α → Option (InEvent α)
  | .out v => some (.sym v)
  | .done => some .fin
  | .abort _ _ => none

/-- The caller moves the oldest event of `BS.out` to `BD.in`, or of `CS.out` to `CD.in` (R199). With no event
there, nothing happens. -/
def connect (l : Link) (s : State) : Outcome :=
  match l with
  | .bits =>
    match s.bs.out with
    | [] => .next s
    | e :: _ =>
      match forwardEvent e with
      | some i => .next ((s.setBs s.bs.take).setBd (s.bd.deliver (encodeBitEvent i)))
      | none => .fault .abortFromStuffer
  | .bytes =>
    match s.cs.out with
    | [] => .next s
    | e :: _ =>
      match forwardEvent e with
      | some i => .next ((s.setCs s.cs.take).setCd (s.cd.deliver (encodeByteEvent i)))
      | none => .fault .abortFromStuffer

/-- A transaction of CS is open once an event of it has been processed (R28). -/
def CsRegs.inTransaction (r : CsRegs) : Bool := r.opened

/-- A transaction of CD is open once a `SYM` of it has been consumed (R30). -/
def CdRegs.inTransaction (r : CdRegs) : Bool := r.idx != 0

/-- The caller drives CS's configuration inputs: any value between transactions (R63); a change inside one is
refused (R247, U2; log 7). -/
def driveCsCfg (c : CharCfg) (s : State) : Outcome :=
  if s.cs.regs.inTransaction && c != s.csCfg then .refused .cfgChangedInTransaction
  else .next (s.setCsCfg c)

/-- The caller drives CD's configuration inputs: any value between transactions (R63); a change inside one is
refused (R247, U2; log 7). -/
def driveCdCfg (c : CharCfg) (s : State) : Outcome :=
  if s.cd.regs.inTransaction && c != s.cdCfg then .refused .cfgChangedInTransaction
  else .next (s.setCdCfg c)

/-- The caller drives the reset input of unit `p` (R240, R241). -/
def driveRst (p : Port) (asserted : Bool) (s : State) : State :=
  match p with
  | .bs => s.setBs (s.bs.driveRst .reset asserted)
  | .bd => s.setBd (s.bd.driveRst .reset asserted)
  | .cs => s.setCs (s.cs.driveRst .reset asserted)
  | .cd => s.setCd (s.cd.driveRst .reset asserted)

/-- The consumer of unit `p` becomes ready or not ready (R54). -/
def driveReady (p : Port) (ready : Bool) (s : State) : State :=
  match p with
  | .bs => s.setBs (s.bs.driveReady ready)
  | .bd => s.setBd (s.bd.driveReady ready)
  | .cs => s.setCs (s.cs.driveReady ready)
  | .cd => s.setCd (s.cd.driveReady ready)

/-! ## What happens next -/

/-- What a turn comes to: an event to run, in the state with its beat consumed, or something already
settled. -/
inductive Activity where
  /-- The unit takes this event. -/
  | event (i : Instr) (s : State)
  /-- No event runs: the caller acted, or the unit waits. -/
  | settled (o : Outcome)
  deriving Repr

/-- The next input event of unit `p`, decoded (R73), and the state with its beat consumed (R53). -/
def fetchEvent (p : Port) (s : State) : Option (Instr × State) :=
  match p with
  | .bs => s.bs.fetch.map fun f => (decodeBeat (.bs f.1), s.setBs f.2)
  | .bd => s.bd.fetch.map fun f => (decodeBeat (.bd f.1), s.setBd f.2)
  | .cs => s.cs.fetch.map fun f => (decodeBeat (.cs f.1), s.setCs f.2)
  | .cd => s.cd.fetch.map fun f => (decodeBeat (.cd f.1), s.setCd f.2)

/-- Unit `p` takes its next event; where it cannot, it waits and nothing changes (R54). -/
def unitTurn (p : Port) (s : State) : Activity :=
  match fetchEvent p s with
  | some (i, t) => .event i t
  | none => .settled (.next s)

/-- What a turn does, in a state whose schedule it has left. -/
def turnActivity (t : Turn) (s : State) : Activity :=
  match t with
  | .unit p => unitTurn p s
  | .send b => .settled (.next (deliver b s))
  | .take p => .settled (.next (takeOut p s))
  | .connect l => .settled (connect l s)
  | .driveCsCfg c => .settled (driveCsCfg c s)
  | .driveCdCfg c => .settled (driveCdCfg c s)
  | .driveRst p b => .settled (.next (driveRst p b s))
  | .driveReady p b => .settled (.next (driveReady p b s))

/-- What happens in a state: its first turn, taken off the schedule; nothing where none is left (log 2). -/
def activity (s : State) : Activity :=
  match s.sched with
  | [] => .settled (.next s)
  | t :: ts => turnActivity t (s.setSched ts)

/-- The beat delivered in front of its port's stream and its unit given the next turn: the very next step
takes exactly this beat. -/
def placeBeat (b : PortBeat) (s : State) : State :=
  match b with
  | .bs w => (s.setBs (s.bs.place w)).setSched (.unit .bs :: s.sched)
  | .bd w => (s.setBd (s.bd.place w)).setSched (.unit .bd :: s.sched)
  | .cs w => (s.setCs (s.cs.place w)).setSched (.unit .cs :: s.sched)
  | .cd w => (s.setCd (s.cd.place w)).setSched (.unit .cd :: s.sched)

/-- The host's table word placed as `placeBeat` does; a word that is no beat changes nothing (log 4). -/
def placeWord (nbits w : Nat) (s : State) : State :=
  match tableBeat nbits w with
  | some b => placeBeat b s
  | none => s

/-! ## The consumer's reading (R14) -/

/-- Put a symbol in front of a result that is a sequence. -/
def consResult {α : Type} (v : α) : Result α → Result α
  | .ok s => .ok (v :: s)
  | .fail k off => .fail k off

/-- The result of the first transaction on an output stream and the events after its terminator: `ok` of
the `OUT` symbols when the terminator is `DONE`, `fail` when it is `ABORT`, the symbols then being void
(R14, R55). None while no terminator has arrived (R249). For a stretch with no reset in it (log 18). -/
def readResult {α : Type} : List (OutEvent α) → Option (Result α × List (OutEvent α))
  | [] => none
  | .out v :: es => (readResult es).map fun r => (consResult v r.1, r.2)
  | .done :: es => some (.ok [], es)
  | .abort k off :: es => some (.fail k off, es)

end Sys2Proof.Machine
end

