-- ==== Sys2Proof/Machine/Flags.lean ====
section
/-! DEFINITION. What plays the part of flags (spec/10_state.md R35): the error latches, the bit
`CD.lastflag`, the test that a byte is reserved, the run counter's arithmetic, and the numeric codes of the
latches and of the receiver state (spec/30_encoding.md R78, R80). -/

namespace Sys2Proof.Machine

/-- The code of a latch value: NONE = 0, MF = 1, PV = 2 (R80). -/
def Status.code : Status → BitVec 2
  | .none => 0#2
  | .mf => 1#2
  | .pv => 2#2

/-- The code of a receiver state: AwaitFlag = 0, InFrame = 1, EscapeNext = 2, Done = 3 (R78). -/
def RxState.code : RxState → BitVec 2
  | .awaitFlag => 0#2
  | .inFrame => 1#2
  | .escapeNext => 2#2
  | .done => 3#2

/-- The new `CD.lastflag`: 1 when the symbol is FLAG, else 0 (R32, R161). -/
def lastFlagOf (c : CharCfg) (v : Byte) : Bool := v == c.flag

/-- `v == cfg.flag or v == cfg.esc`: the bytes CS escapes (R141). -/
def isReserved (c : CharCfg) (v : Byte) : Bool := v == c.flag || v == c.esc

/-- `cnt + 1`, on natural numbers (R15, R104, R126). -/
def runAfterOne (cnt : BitVec 3) : Nat := cnt.toNat + 1

/-- The 3-bit register that holds the run length `n` (R23, R24). -/
def storeRun (n : Nat) : BitVec 3 := BitVec.ofNat 3 n

end Sys2Proof.Machine
end

