-- ==== Sys2Proof/Machine/Operands.lean ====
section
/-! DEFINITION. The operand forms: one symbol (every SYM event), none (every END event), and a whole
sequence (the four transactions, spec/30_encoding.md R86), which is threaded symbol by symbol through the
unit's SYM event, first symbol first (spec/20_memory.md R56). -/

namespace Sys2Proof.Machine

/-- The symbols of a sequence operand given to a SYM meaning in order; it stops where one of them stops. -/
def feed {α : Type} (sym : α → State → Outcome) : List α → State → Outcome
  | [], s => .next s
  | v :: vs, s => andThen (sym v s) (feed sym vs)

/-- One transaction: the symbols, then `END` (R13, R86). -/
def transact {α : Type} (sym : α → State → Outcome) (fin : State → Outcome) (xs : List α) (s : State) :
    Outcome :=
  andThen (feed sym xs s) fin

end Sys2Proof.Machine
end

