-- ==== Sys2Proof/Machine/BitDestuffer.lean ====
section
/-! DEFINITION. BD, the bit destuffer (spec/41_bit_destuffer.md R121, R122, R86). -/

namespace Sys2Proof.Machine

/-- The reaction of BD to `SYM v` (R121). The sixth consecutive one latches ProtocolViolation
(spec/90_conflicts.md C2; log 9); `BD.idx` advances in every case. -/
def bdSymReaction (v : Bit) (r : BdRegs) : Reaction BdRegs Bit :=
  if r.err = .none then
    if r.cnt.toNat = Config.RUN then
      if v = 0#1 then
        emit { r with cnt := 0, idx := r.idx + 1 } []
      else
        emit { r with err := .pv, eoff := r.idx, idx := r.idx + 1 } []
    else if v = 1#1 then
      emit { r with cnt := storeRun (runAfterOne r.cnt), idx := r.idx + 1 } [1]
    else
      emit { r with cnt := 0, idx := r.idx + 1 } [0]
  else
    emit { r with idx := r.idx + 1 } []

/-- The reaction of BD to `END` (R122). -/
def bdEndReaction (r : BdRegs) : Reaction BdRegs Bit :=
  if r.err = .pv then raise .reset .protocolViolation r.eoff
  else if r.cnt.toNat = Config.RUN then raise .reset .malformedFrame r.idx
  else closeOk .reset []

/-- `BD.SYM v` (R121). -/
def execBdSym (v : Bit) (s : State) : Outcome := .next (s.setBd (s.bd.react (bdSymReaction v s.bd.regs)))

/-- `BD.END` (R122). -/
def execBdEnd (s : State) : Outcome := .next (s.setBd (s.bd.react (bdEndReaction s.bd.regs)))

/-- `bitDestuff(y)`: `BD.SYM y[0]; ...; BD.SYM y[n-1]; BD.END` (R86). -/
def execBitDestuff (y : BitSequence) (s : State) : Outcome := transact execBdSym execBdEnd y s

end Sys2Proof.Machine
end

