-- ==== Sys2Proof/Machine/BitStuffer.lean ====
section
/-! DEFINITION. BS, the bit stuffer (spec/40_bit_stuffer.md R101, R102, R86). -/

namespace Sys2Proof.Machine

/-- The reaction of BS to `SYM v` (R101). -/
def bsSymReaction (v : Bit) (r : BsRegs) : Reaction BsRegs Bit :=
  if v = 1#1 then
    if runAfterOne r.cnt = Config.RUN then
      emit { r with cnt := 0 } [1, 0]
    else
      emit { r with cnt := storeRun (runAfterOne r.cnt) } [1]
  else
    emit { r with cnt := 0 } [0]

/-- The reaction of BS to `END` (R102): nothing is emitted for a run in progress. -/
def bsEndReaction : Reaction BsRegs Bit := closeOk .reset []

/-- `BS.SYM v` (R101). -/
def execBsSym (v : Bit) (s : State) : Outcome := .next (s.setBs (s.bs.react (bsSymReaction v s.bs.regs)))

/-- `BS.END` (R102). -/
def execBsEnd (s : State) : Outcome := .next (s.setBs (s.bs.react bsEndReaction))

/-- `bitStuff(x)`: `BS.SYM x[0]; ...; BS.SYM x[n-1]; BS.END` (R86). -/
def execBitStuff (x : BitSequence) (s : State) : Outcome := transact execBsSym execBsEnd x s

end Sys2Proof.Machine
end

