-- ==== Sys2Proof/Machine/CharDestuffer.lean ====
section
/-! DEFINITION. CD, the character destuffer (spec/43_char_destuffer.md R161 to R163, R86). -/

namespace Sys2Proof.Machine

/-- The reaction of CD to `SYM v` (R161). `r'` carries the writes made in every case: `CD.lastflag` and
`CD.idx`. -/
def cdSymReaction (c : CharCfg) (v : Byte) (r : CdRegs) : Reaction CdRegs Byte :=
  let r' := { r with lastflag := lastFlagOf c v, idx := r.idx + 1 }
  if r.err = .none then
    match r.st with
    | .awaitFlag =>
      if v = c.flag then emit { r' with st := .inFrame } []
      else emit { r' with err := .mf, eoff := r.idx } []
    | .inFrame =>
      if v = c.esc then emit { r' with st := .escapeNext } []
      else if v = c.flag then emit { r' with st := .done, eoff := r.idx } []
      else emit r' [v]
    | .escapeNext => emit { r' with st := .inFrame } [v]
    | .done => emit { r' with err := .pv } []
  else
    emit r' []

/-- The reaction of CD to `END` (R162): the delimiters are checked before the interior (R216). -/
def cdEndReaction (r : CdRegs) : Reaction CdRegs Byte :=
  match r.err with
  | .mf => raise .reset .malformedFrame r.eoff
  | .pv => if r.lastflag then raise .reset .protocolViolation r.eoff else raise .reset .malformedFrame r.idx
  | .none =>
    match r.st with
    | .done => closeOk .reset []
    | .awaitFlag => raise .reset .malformedFrame r.idx
    | .inFrame => raise .reset .malformedFrame r.idx
    | .escapeNext => raise .reset .malformedFrame r.idx

/-- `CD.SYM v` (R161). -/
def execCdSym (v : Byte) (s : State) : Outcome :=
  withDistinctCfg s.cdCfg (.next (s.setCd (s.cd.react (cdSymReaction s.cdCfg v s.cd.regs))))

/-- `CD.END` (R162). -/
def execCdEnd (s : State) : Outcome :=
  withDistinctCfg s.cdCfg (.next (s.setCd (s.cd.react (cdEndReaction s.cd.regs))))

/-- `charDestuff(s)`: `CD.SYM s[0]; ...; CD.SYM s[n-1]; CD.END` (R86). -/
def execCharDestuff (y : ByteSequence) (s : State) : Outcome := transact execCdSym execCdEnd y s

end Sys2Proof.Machine
end

