-- ==== Sys2Proof/Machine/CharStuffer.lean ====
section
/-! DEFINITION. CS, the character stuffer (spec/42_char_stuffer.md R141, R142, R86). -/

namespace Sys2Proof.Machine

/-- The leading FLAG, where it has not been emitted in this transaction (R141, R142). -/
def leadingFlag (c : CharCfg) (r : CsRegs) : ByteSequence := if r.opened then [] else [c.flag]

/-- A payload byte as CS emits it: preceded by ESC when it equals FLAG or ESC, itself unchanged (R141). -/
def escaped (c : CharCfg) (v : Byte) : ByteSequence := if isReserved c v then [c.esc, v] else [v]

/-- The reaction of CS to `SYM v` (R141). -/
def csSymReaction (c : CharCfg) (v : Byte) (r : CsRegs) : Reaction CsRegs Byte :=
  emit { r with opened := true } (leadingFlag c r ++ escaped c v)

/-- The reaction of CS to `END` (R142): the trailing FLAG is a byte of its own. -/
def csEndReaction (c : CharCfg) (r : CsRegs) : Reaction CsRegs Byte :=
  closeOk .reset (leadingFlag c r ++ [c.flag])

/-- `CS.SYM v` (R141). -/
def execCsSym (v : Byte) (s : State) : Outcome :=
  withDistinctCfg s.csCfg (.next (s.setCs (s.cs.react (csSymReaction s.csCfg v s.cs.regs))))

/-- `CS.END` (R142). -/
def execCsEnd (s : State) : Outcome :=
  withDistinctCfg s.csCfg (.next (s.setCs (s.cs.react (csEndReaction s.csCfg s.cs.regs))))

/-- `charStuff(x)`: `CS.SYM x[0]; ...; CS.SYM x[n-1]; CS.END` (R86). -/
def execCharStuff (x : ByteSequence) (s : State) : Outcome := transact execCsSym execCsEnd x s

end Sys2Proof.Machine
end

