-- ==== Sys2Proof/Machine/Dispatch.lean ====
section
/-! DEFINITION. The meaning of every instruction: one arm per constructor, each a direct call of the
instruction's own definition (spec/30_encoding.md R76, R86). -/

namespace Sys2Proof.Machine

/-- What an instruction does once it is taken. -/
def exec (i : Instr) (s : State) : Host.Outcome State Fault Refusal :=
  match i with
  | .bsSym v => Sys2Proof.Machine.execBsSym v s
  | .bsEnd => Sys2Proof.Machine.execBsEnd s
  | .bdSym v => Sys2Proof.Machine.execBdSym v s
  | .bdEnd => Sys2Proof.Machine.execBdEnd s
  | .csSym v => Sys2Proof.Machine.execCsSym v s
  | .csEnd => Sys2Proof.Machine.execCsEnd s
  | .cdSym v => Sys2Proof.Machine.execCdSym v s
  | .cdEnd => Sys2Proof.Machine.execCdEnd s
  | .bitStuff x => Sys2Proof.Machine.execBitStuff x s
  | .bitDestuff y => Sys2Proof.Machine.execBitDestuff y s
  | .charStuff x => Sys2Proof.Machine.execCharStuff x s
  | .charDestuff y => Sys2Proof.Machine.execCharDestuff y s

end Sys2Proof.Machine
end

