-- ==== Sys2Proof/Machine/Step.lean ====
section
/-! DEFINITION. One step of the block: the first turn of the schedule (spec/00_scope.md R7,
spec/20_memory.md R53, R60), and the place where the host puts an instruction. -/

namespace Sys2Proof.Machine

/-- One step: the event the next turn takes is run, or what the turn settles is the outcome. -/
def step (s : State) : Host.Outcome State Fault Refusal :=
  match activity s with
  | .event i t => exec i t
  | .settled o => o

/-- The table word as the next event of its port, with that port's unit given the next turn (log 3, log 4). -/
def State.withFetchWord (s : State) (nbits w : Nat) : State := placeWord nbits w s

/-- A beat as the next event of its port, with that port's unit given the next turn (log 3). -/
def State.withFetchBeat (s : State) (b : PortBeat) : State := placeBeat b s

end Sys2Proof.Machine
end

