-- ==== Sys2Proof/Machine/Contracts.lean ====
section
/-! DEFINITION. The frame-level functions, the document's own contracts, written from their recursive
definitions and not from the step machines (spec/40_bit_stuffer.md R100, spec/41_bit_destuffer.md R120,
spec/42_char_stuffer.md R140, spec/43_char_destuffer.md R160), and the frame formats
(spec/30_encoding.md R83, R84). The two descriptions must agree (spec/00_scope.md R8).

The character functions have `FLAG != ESC` as a premise (R190, spec/93_implementation_defined.md U1). Here they
are total over `CharCfg`; their values at `FLAG == ESC` are the model's (DESIGN CHOICE, unsafe, log 22), and the
machine refuses such a configuration (log 6). -/

namespace Sys2Proof.Machine

/-- `go(x, c)` of R100: the rest of the stuffed form, `c` ones having been copied since the last zero. -/
def stuffBitsFrom : BitSequence → Nat → BitSequence
  | [], _ => []
  | b :: rest, c =>
    if b = 0#1 then 0 :: stuffBitsFrom rest 0
    else if c + 1 < 5 then 1 :: stuffBitsFrom rest (c + 1)
    else 1 :: 0 :: stuffBitsFrom rest 0

/-- `bitStuff(x)` (R100). -/
def bitStuff (x : BitSequence) : BitSequence := stuffBitsFrom x 0

/-- `go(y, c, i, acc)` of R120. -/
def destuffBitsFrom : BitSequence → Nat → Nat → BitSequence → Result Bit
  | [], c, i, acc => if c < 5 then .ok acc else .fail .malformedFrame i
  | b :: rest, c, i, acc =>
    if c < 5 then
      if b = 0#1 then destuffBitsFrom rest 0 (i + 1) (acc ++ [0])
      else destuffBitsFrom rest (c + 1) (i + 1) (acc ++ [1])
    else if b = 0#1 then destuffBitsFrom rest 0 (i + 1) acc
    else .fail .protocolViolation i

/-- `bitDestuff(y)` (R120). -/
def bitDestuff (y : BitSequence) : Result Bit := destuffBitsFrom y 0 0 []

/-- `esc(x)` of R140. Its values at `FLAG == ESC` are the model's (DESIGN CHOICE, log 22). -/
def escapeBytes (c : CharCfg) : ByteSequence → ByteSequence
  | [] => []
  | b :: rest => if b = c.flag ∨ b = c.esc then c.esc :: b :: escapeBytes c rest else b :: escapeBytes c rest

/-- `charStuff(x)` (R140), for `FLAG != ESC`. At `FLAG == ESC`, which the spec refuses (U1), the same equations are
read on: those values are the model's (DESIGN CHOICE, log 22). -/
def charStuff (c : CharCfg) (x : ByteSequence) : ByteSequence := [c.flag] ++ escapeBytes c x ++ [c.flag]

/-- `scan(s, i, acc)` of R160, `n` being the length of the whole frame; the clauses in the order written. At
`FLAG == ESC` the test for ESC comes first, which is the model's choice (DESIGN CHOICE, log 22). -/
def scanInterior (c : CharCfg) (n : Nat) : ByteSequence → Nat → ByteSequence → Result Byte
  | [], _, acc => .ok acc
  | [a], i, acc =>
    if a = c.esc then .fail .malformedFrame n
    else if a = c.flag then .fail .protocolViolation i
    else .ok (acc ++ [a])
  | a :: b :: rest, i, acc =>
    if a = c.esc then scanInterior c n rest (i + 2) (acc ++ [b])
    else if a = c.flag then .fail .protocolViolation i
    else scanInterior c n (b :: rest) (i + 1) (acc ++ [a])

/-- The interior of a frame, `s[1..|s|-1)` (spec/00_scope.md, glossary). -/
def interior (s : ByteSequence) : ByteSequence := (s.drop 1).dropLast

/-- `charDestuff(s)` (R160), for `FLAG != ESC`: the checks in the document's order. At `FLAG == ESC`, which the spec
refuses (U1), the same equations are read on: those values are the model's (DESIGN CHOICE, log 22). -/
def charDestuff (c : CharCfg) (s : ByteSequence) : Result Byte :=
  if s = [] then .fail .malformedFrame 0
  else if s.head? ≠ some c.flag then .fail .malformedFrame 0
  else if s.length = 1 then .fail .malformedFrame 1
  else if s.getLast? ≠ some c.flag then .fail .malformedFrame s.length
  else scanInterior c s.length (interior s) 1 []

/-- A bit-oriented frame as the caller builds it around BS's output (R84). -/
def bitFrame (x : BitSequence) : BitSequence := Config.BITFLAG ++ bitStuff x ++ Config.BITFLAG

/-- No unescaped FLAG or ESC: read from its first byte, every FLAG and every ESC of the sequence is an ESC
that introduces an escape pair or the second byte of such a pair (spec/44_laws.md R194). Meant for
`FLAG != ESC` (log 22). -/
def noUnescaped (c : CharCfg) : ByteSequence → Bool
  | [] => true
  | [a] => a != c.flag && a != c.esc
  | a :: b :: rest => if a = c.esc then noUnescaped c rest else a != c.flag && noUnescaped c (b :: rest)

/-- One item of an interior as it is read: a byte copied as it stands, or an escape pair
(spec/43_char_destuffer.md R160). -/
inductive Item where
  /-- A byte that is neither FLAG nor ESC. -/
  | plain (b : Byte)
  /-- ESC and the byte after it. -/
  | pair (b : Byte)
  deriving DecidableEq, Repr

/-- The bytes of an item. -/
def Item.bytes (c : CharCfg) : Item → ByteSequence
  | .plain b => [b]
  | .pair b => [c.esc, b]

/-- The payload byte of an item. -/
def Item.payload : Item → Byte
  | .plain b => b
  | .pair b => b

/-- A plain item is neither FLAG nor ESC; a pair may hold any byte (R170). -/
def Item.legal (c : CharCfg) : Item → Bool
  | .plain b => b != c.flag && b != c.esc
  | .pair _ => true

/-- The bytes of a list of items. -/
def itemBytes (c : CharCfg) (its : List Item) : ByteSequence := its.flatMap (Item.bytes c)

end Sys2Proof.Machine
end

