-- ==== Sys2Proof/Machine/Text.lean ====
section
/-! DEFINITION. The textual form of the four calls and of results (spec/30_encoding.md R85, spec/00_scope.md
R10, R11): `bitStuff("11111")`, `== "111110"`, `→ MalformedFrame @5`. Text is a list of characters, leftmost
first. -/

namespace Sys2Proof.Machine

/-- A bit as its character (R71, R79). -/
def bitChar (b : Bit) : Char := if b = 1#1 then '1' else '0'

/-- The bit a character stands for. -/
def charBit (c : Char) : Option Bit := if c = '0' then some 0#1 else if c = '1' then some 1#1 else none

/-- A byte as the character whose code it is (R11). -/
def byteChar (b : Byte) : Char := Char.ofNat b.toNat

/-- The byte a character stands for: its code, where it is one byte (R11, R85; log 21). -/
def charByte (c : Char) : Option Byte := if c.toNat < 256 then some (BitVec.ofNat 8 c.toNat) else none

/-- A function call's text: the name, a parenthesis, and the argument in quotation marks (R85). -/
def callText (name : List Char) (argument : List Char) : List Char :=
  name ++ ['(', '"'] ++ argument ++ ['"', ')']

/-- The names of the four operations as they are written in a call. -/
def nameBitStuff : List Char := ['b', 'i', 't', 'S', 't', 'u', 'f', 'f']
/-- `bitDestuff`. -/
def nameBitDestuff : List Char := ['b', 'i', 't', 'D', 'e', 's', 't', 'u', 'f', 'f']
/-- `charStuff`. -/
def nameCharStuff : List Char := ['c', 'h', 'a', 'r', 'S', 't', 'u', 'f', 'f']
/-- `charDestuff`. -/
def nameCharDestuff : List Char := ['c', 'h', 'a', 'r', 'D', 'e', 's', 't', 'u', 'f', 'f']

/-- The text of a transaction; an event has no text of its own in R85. -/
def textOf : Instr → Option (List Char)
  | .bitStuff x => some (callText nameBitStuff (x.map bitChar))
  | .bitDestuff y => some (callText nameBitDestuff (y.map bitChar))
  | .charStuff x => some (callText nameCharStuff (x.map byteChar))
  | .charDestuff s => some (callText nameCharDestuff (s.map byteChar))
  | .bsSym _ => none
  | .bsEnd => none
  | .bdSym _ => none
  | .bdEnd => none
  | .csSym _ => none
  | .csEnd => none
  | .cdSym _ => none
  | .cdEnd => none

/-- `t` without the text `p` it must begin with. -/
def afterText : List Char → List Char → Option (List Char)
  | [], t => some t
  | _ :: _, [] => none
  | p :: ps, c :: cs => if p = c then afterText ps cs else none

/-- The argument of a call of the operation `name`, where the text is one. -/
def callArgument (name : List Char) (t : List Char) : Option (List Char) :=
  match afterText (name ++ ['(', '"']) t with
  | some body =>
    match afterText [')', '"'] body.reverse with
    | some argument => some argument.reverse
    | none => none
  | none => none

/-- The transaction a call's text is: the four names are tried in turn; every character of the argument must
stand for a symbol of the operation. -/
def parseCall (t : List Char) : Option Instr :=
  match callArgument nameBitStuff t with
  | some a => (a.mapM charBit).map .bitStuff
  | none =>
    match callArgument nameBitDestuff t with
    | some a => (a.mapM charBit).map .bitDestuff
    | none =>
      match callArgument nameCharStuff t with
      | some a => (a.mapM charByte).map .charStuff
      | none =>
        match callArgument nameCharDestuff t with
        | some a => (a.mapM charByte).map .charDestuff
        | none => none

/-- The name of an error kind in a result (R85). -/
def kindName : ErrKind → String
  | .malformedFrame => "MalformedFrame"
  | .protocolViolation => "ProtocolViolation"

/-- A result's text: `== "..."` for `ok`, `→ <kind> @<offset>` for `fail` (R85). -/
def resultText {α : Type} (symbol : α → Char) : Result α → String
  | .ok s => "== \"" ++ String.ofList (s.map symbol) ++ "\""
  | .fail k off => "→ " ++ kindName k ++ " @" ++ toString off

end Sys2Proof.Machine
end

