-- ==== Sys2Proof/Safety.lean ====
section
/-! DEFINITION. What claims call a legal state: the invariants that hold between steps
(spec/10_state.md R38, with the ranges of R23 to R32), that no stuffer's output carries an ABORT
(spec/20_memory.md R51, spec/60_exceptions.md R215), and that a unit held in reset is in its reset state
(spec/70_reset_and_hazards.md R240); and when no step is refused. -/

namespace Sys2Proof.Machine

/-- `BS.cnt <= 4` (R38). -/
def BsRegs.Legal (r : BsRegs) : Prop := r.cnt.toNat ≤ 4

/-- `BD.cnt <= 5`; `BD.err` is NONE or PV; PV implies `BD.eoff < BD.idx` (R38); and once PV is latched the
counter stays 5 (R122, corner cases). -/
structure BdRegs.Legal (r : BdRegs) : Prop where
  /-- `BD.cnt <= 5`. -/
  cnt_le : r.cnt.toNat ≤ 5
  /-- `BD.err` is NONE or PV. -/
  err_ne_mf : r.err ≠ .mf
  /-- PV: the offset lies before the next symbol. -/
  pv_off : r.err = .pv → r.eoff < r.idx
  /-- PV: the counter stays 5. -/
  pv_cnt : r.err = .pv → r.cnt.toNat = 5

/-- The invariants of CD (R38). `CD.eoff < CD.idx - 1` and `CD.eoff == CD.idx - 1` are written without a
subtraction. -/
structure CdRegs.Legal (r : CdRegs) : Prop where
  /-- AwaitFlag without an error: no symbol consumed. -/
  await : r.st = .awaitFlag → r.err = .none → r.idx = 0
  /-- MF: found at the first symbol, the state frozen. -/
  mf : r.err = .mf → r.eoff = 0 ∧ r.st = .awaitFlag
  /-- PV: in Done, the offset that of an earlier FLAG. -/
  pv : r.err = .pv → r.st = .done ∧ r.eoff + 1 < r.idx
  /-- Done without an error: the last symbol was the FLAG at `eoff`. -/
  done : r.st = .done → r.err = .none → r.eoff + 1 = r.idx ∧ r.lastflag = true

/-- An output event that is no ABORT. -/
def notAbort {α : Type} : OutEvent α → Bool
  | .out _ => true
  | .done => true
  | .abort _ _ => false

/-- A unit held in reset is in its reset state (R240). -/
def Lane.HeldReset {ρ β α : Type} (init : ρ) (l : Lane ρ β α) : Prop := l.rst = true → l.regs = init

/-- The invariant of the block. -/
structure State.Inv (s : State) : Prop where
  /-- BS (R38). -/
  bs : s.bs.regs.Legal
  /-- BD (R38). -/
  bd : s.bd.regs.Legal
  /-- CD (R38). -/
  cd : s.cd.regs.Legal
  /-- `BS.out` carries no ABORT (R51, R215). -/
  bsOut : ∀ e ∈ s.bs.out, notAbort e = true
  /-- `CS.out` carries no ABORT (R51, R215). -/
  csOut : ∀ e ∈ s.cs.out, notAbort e = true
  /-- BS held in reset (R240). -/
  bsHeld : s.bs.HeldReset .reset
  /-- BD held in reset (R240). -/
  bdHeld : s.bd.HeldReset .reset
  /-- CS held in reset (R240). -/
  csHeld : s.cs.HeldReset .reset
  /-- CD held in reset (R240). -/
  cdHeld : s.cd.HeldReset .reset

/-- A list of instructions run in order; it stops where one of them stops. -/
def runEvents : List Instr → State → Outcome
  | [], s => .next s
  | i :: is, s => andThen (exec i s) (runEvents is)

/-- The caller keeps its duty on the configuration at this step: a character unit that is given a turn has
`cfg.flag != cfg.esc`, and a change of the configuration falls between transactions
(spec/70_reset_and_hazards.md R242, R247). -/
def State.CallerKeepsCfg (s : State) : Prop :=
  match s.sched with
  | .unit .cs :: _ => s.csCfg.wf = true
  | .unit .cd :: _ => s.cdCfg.wf = true
  | .driveCsCfg c :: _ => s.cs.regs.opened = true → c = s.csCfg
  | .driveCdCfg c :: _ => s.cd.regs.idx ≠ 0 → c = s.cdCfg
  | _ => True

end Sys2Proof.Machine
end

