-- ==== Sys2Proof/Certificates/Slice0/Obligations.lean ====
section
/-! DEFINITION. The statements for the provers. Each docstring names the rule of spec/ it formalises. An
instruction's statement gives the whole next state as an update of the state before, so that everything
the update does not name is unchanged (its frame). -/

open Sys2Proof Sys2Proof.Machine

/-! ## Encodings -/

/-- Words written out from spec/95_test_vectors.md section 6 (V50 to V57). -/
def Obligations.WordsOfTheSpecDecode : Prop :=
  decodeWord .bs 0b00 = .ok (.bsSym 0) ∧ decodeWord .bs 0b01 = .ok (.bsSym 1) ∧
  decodeWord .bd 0b01 = .ok (.bdSym 1) ∧ decodeWord .bs 0b10 = .ok .bsEnd ∧
  decodeWord .bd 0b11 = .ok .bdEnd ∧ decodeWord .cs 0x07E = .ok (.csSym 0x7E) ∧
  decodeWord .cd 0x000 = .ok (.cdSym 0x00) ∧ decodeWord .cs 0x100 = .ok .csEnd ∧
  decodeWord .cd 0x17E = .ok .cdEnd ∧ decodeWord .bs 0b100 = .error .wordTooWide ∧
  decodeWord .cd 0x200 = .error .wordTooWide

/-- R71, R72, R73: bit 1 (bit 8) of a beat decides between SYM and END, the bits below are the symbol, and
every beat is one event. -/
def Obligations.EveryBeatIsExactlyOneEvent : Prop :=
  (∀ w : BitBeat,
    (w.getLsbD 1 = false →
      decodeBeat (.bs w) = .bsSym (w.setWidth 1) ∧ decodeBeat (.bd w) = .bdSym (w.setWidth 1)) ∧
    (w.getLsbD 1 = true → decodeBeat (.bs w) = .bsEnd ∧ decodeBeat (.bd w) = .bdEnd)) ∧
  (∀ w : ByteBeat,
    (w.getLsbD 8 = false →
      decodeBeat (.cs w) = .csSym (w.setWidth 8) ∧ decodeBeat (.cd w) = .cdSym (w.setWidth 8)) ∧
    (w.getLsbD 8 = true → decodeBeat (.cs w) = .csEnd ∧ decodeBeat (.cd w) = .cdEnd))

/-- R76: a beat `w` is the row's event exactly when `w & mask == match`, for the eight rows. -/
def Obligations.EventTableRowsSelectTheirEvents : Prop :=
  (∀ w : BitBeat,
    (w &&& 0b10 = 0b00 ↔ ∃ v, decodeBeat (.bs w) = .bsSym v) ∧
    (w &&& 0b10 = 0b10 ↔ decodeBeat (.bs w) = .bsEnd) ∧
    (w &&& 0b10 = 0b00 ↔ ∃ v, decodeBeat (.bd w) = .bdSym v) ∧
    (w &&& 0b10 = 0b10 ↔ decodeBeat (.bd w) = .bdEnd)) ∧
  (∀ w : ByteBeat,
    (w &&& 0x100 = 0x000 ↔ ∃ v, decodeBeat (.cs w) = .csSym v) ∧
    (w &&& 0x100 = 0x100 ↔ decodeBeat (.cs w) = .csEnd) ∧
    (w &&& 0x100 = 0x000 ↔ ∃ v, decodeBeat (.cd w) = .cdSym v) ∧
    (w &&& 0x100 = 0x100 ↔ decodeBeat (.cd w) = .cdEnd))

/-- Every instruction reads back from its words: an event from its beat, a transaction from its beats
whatever follows them (R71, R72, R73, R86). -/
def Obligations.EveryInstructionReadsBackFromItsWords : Prop :=
  (∀ v, (encode (.bsSym v)).map decodeBeat = [.bsSym v]) ∧
  (encode .bsEnd).map decodeBeat = [.bsEnd] ∧
  (∀ v, (encode (.bdSym v)).map decodeBeat = [.bdSym v]) ∧
  (encode .bdEnd).map decodeBeat = [.bdEnd] ∧
  (∀ v, (encode (.csSym v)).map decodeBeat = [.csSym v]) ∧
  (encode .csEnd).map decodeBeat = [.csEnd] ∧
  (∀ v, (encode (.cdSym v)).map decodeBeat = [.cdSym v]) ∧
  (encode .cdEnd).map decodeBeat = [.cdEnd] ∧
  (∀ x rest, decodeTransaction (encode (.bitStuff x) ++ rest) = .ok (.bitStuff x, rest)) ∧
  (∀ y rest, decodeTransaction (encode (.bitDestuff y) ++ rest) = .ok (.bitDestuff y, rest)) ∧
  (∀ x rest, decodeTransaction (encode (.charStuff x) ++ rest) = .ok (.charStuff x, rest)) ∧
  (∀ y rest, decodeTransaction (encode (.charDestuff y) ++ rest) = .ok (.charDestuff y, rest))

/-- R86: the words of a transaction are the events of its expansion, and running it is running them in
order. -/
def Obligations.TransactionIsItsExpansion : Prop :=
  (∀ x : BitSequence, (encode (.bitStuff x)).map decodeBeat = x.map Instr.bsSym ++ [Instr.bsEnd]) ∧
  (∀ y : BitSequence, (encode (.bitDestuff y)).map decodeBeat = y.map Instr.bdSym ++ [Instr.bdEnd]) ∧
  (∀ x : ByteSequence, (encode (.charStuff x)).map decodeBeat = x.map Instr.csSym ++ [Instr.csEnd]) ∧
  (∀ y : ByteSequence, (encode (.charDestuff y)).map decodeBeat = y.map Instr.cdSym ++ [Instr.cdEnd]) ∧
  (∀ (x : BitSequence) (s : State), exec (.bitStuff x) s = runEvents (x.map Instr.bsSym ++ [Instr.bsEnd]) s) ∧
  (∀ (y : BitSequence) (s : State), exec (.bitDestuff y) s = runEvents (y.map Instr.bdSym ++ [Instr.bdEnd]) s) ∧
  (∀ (x : ByteSequence) (s : State), exec (.charStuff x) s = runEvents (x.map Instr.csSym ++ [Instr.csEnd]) s) ∧
  (∀ (y : ByteSequence) (s : State), exec (.charDestuff y) s = runEvents (y.map Instr.cdSym ++ [Instr.cdEnd]) s)

/-- R75, R80: the three encodings, the numeric codes, and the field order `term`, `status`, `offset`, `data`
from the most significant bit down (V58, V60, V61). -/
def Obligations.OutputBeatFields : Prop :=
  (∀ (n : Nat) (v : BitVec n), encodeOut (.out v) = ⟨0, 0, 0, v⟩) ∧
  (∀ n : Nat, encodeOut (.done : OutEvent (BitVec n)) = ⟨1, 0, 0, 0⟩) ∧
  (∀ n off : Nat, encodeOut (.abort .malformedFrame off : OutEvent (BitVec n)) = ⟨1, 1, off, 0⟩) ∧
  (∀ n off : Nat, encodeOut (.abort .protocolViolation off : OutEvent (BitVec n)) = ⟨1, 2, off, 0⟩) ∧
  packOut 8 (encodeOut (.out 1 : OutEvent Bit)) = some (0b000000000001#12) ∧
  packOut 8 (encodeOut (.abort .malformedFrame 5 : OutEvent Bit)) = some (0b101000001010#12) ∧
  packOut 8 (encodeOut (.abort .protocolViolation 3 : OutEvent Byte)) = some (0b1100000001100000000#19)

/-- Every output event reads back from its beat, and from the packed beat where its offset fits OFFW bits;
an offset that does not fit is refused, not wrapped (spec/93_implementation_defined.md U3); a terminator
of status 3 is no event (R80, U5). -/
def Obligations.OutputBeatsReadBack : Prop :=
  (∀ (n : Nat) (e : OutEvent (BitVec n)), decodeOut (encodeOut e) = some e) ∧
  (∀ (n offw : Nat) (e : OutEvent (BitVec n)), e.fits offw = true →
    ∃ w, packOut offw (encodeOut e) = some w ∧ unpackOut offw w = encodeOut e) ∧
  (∀ (n offw : Nat) (e : OutEvent (BitVec n)), e.fits offw = false → packOut offw (encodeOut e) = none) ∧
  (∀ (n off : Nat) (d : BitVec n), decodeOut ⟨1, 3, off, d⟩ = none)

/-- The text of every call reads back as the call, in the notation of R85. It ranges over every byte, so it
rests on the model's choice of log 21: R85 and R11 give ASCII codes only and no escape, so that a byte above
0x7F is the character with that code and that the argument ends at the last quotation mark are the model's,
not the spec's. -/
def Obligations.CallTextReadsBack : Prop :=
  (∀ x, ∃ t, textOf (.bitStuff x) = some t ∧ parseCall t = some (.bitStuff x)) ∧
  (∀ y, ∃ t, textOf (.bitDestuff y) = some t ∧ parseCall t = some (.bitDestuff y)) ∧
  (∀ x, ∃ t, textOf (.charStuff x) = some t ∧ parseCall t = some (.charStuff x)) ∧
  (∀ y, ∃ t, textOf (.charDestuff y) = some t ∧ parseCall t = some (.charDestuff y))

/-! ## One step -/

/-- A unit given a turn, out of reset, with a ready consumer and a beat waiting: the step is `exec` of the
event that beat is, in the state with the turn and the beat gone (R7, R53, R70). -/
def Obligations.StepRunsTheFetchedEvent : Prop :=
  ∀ (s : State) (ts : List Turn),
  (∀ w ws, s.sched = .unit .bs :: ts → s.bs.rst = false → s.bs.ready = true → s.bs.inp = w :: ws →
    step s = exec (decodeBeat (.bs w)) { s with bs := { s.bs with inp := ws }, sched := ts }) ∧
  (∀ w ws, s.sched = .unit .bd :: ts → s.bd.rst = false → s.bd.ready = true → s.bd.inp = w :: ws →
    step s = exec (decodeBeat (.bd w)) { s with bd := { s.bd with inp := ws }, sched := ts }) ∧
  (∀ w ws, s.sched = .unit .cs :: ts → s.cs.rst = false → s.cs.ready = true → s.cs.inp = w :: ws →
    step s = exec (decodeBeat (.cs w)) { s with cs := { s.cs with inp := ws }, sched := ts }) ∧
  (∀ w ws, s.sched = .unit .cd :: ts → s.cd.rst = false → s.cd.ready = true → s.cd.inp = w :: ws →
    step s = exec (decodeBeat (.cd w)) { s with cd := { s.cd with inp := ws }, sched := ts })

/-- The model's own loading of one beat (log 3, log 4): the very next step runs the event placed, and nothing
of the state but the unit's two pins has changed. -/
def Obligations.PlacedBeatIsTheNextEvent : Prop :=
  ∀ s : State,
  (∀ w, step (s.withFetchBeat (.bs w)) =
    exec (decodeBeat (.bs w)) { s with bs := { s.bs with rst := false, ready := true } }) ∧
  (∀ w, step (s.withFetchBeat (.bd w)) =
    exec (decodeBeat (.bd w)) { s with bd := { s.bd with rst := false, ready := true } }) ∧
  (∀ w, step (s.withFetchBeat (.cs w)) =
    exec (decodeBeat (.cs w)) { s with cs := { s.cs with rst := false, ready := true } }) ∧
  (∀ w, step (s.withFetchBeat (.cd w)) =
    exec (decodeBeat (.cd w)) { s with cd := { s.cd with rst := false, ready := true } }) ∧
  (∀ nbits w i, decodeTableWord nbits w = some i →
    step (s.withFetchWord nbits w) = exec i
      (if nbits ≤ 8 then { s with bs := { s.bs with rst := false, ready := true } }
       else { s with cs := { s.cs with rst := false, ready := true } }))

/-- R54, R240, R249: a unit with no input event, or whose consumer is not ready, or held in reset, waits and
nothing changes; with no turn scheduled nothing happens (the last is the model's choice, log 2). -/
def Obligations.UnitWaitsWithoutChange : Prop :=
  ∀ (s : State) (ts : List Turn),
  (s.sched = .unit .bs :: ts → s.bs.rst = true ∨ s.bs.ready = false ∨ s.bs.inp = [] →
    step s = .next { s with sched := ts }) ∧
  (s.sched = .unit .bd :: ts → s.bd.rst = true ∨ s.bd.ready = false ∨ s.bd.inp = [] →
    step s = .next { s with sched := ts }) ∧
  (s.sched = .unit .cs :: ts → s.cs.rst = true ∨ s.cs.ready = false ∨ s.cs.inp = [] →
    step s = .next { s with sched := ts }) ∧
  (s.sched = .unit .cd :: ts → s.cd.rst = true ∨ s.cd.ready = false ∨ s.cd.inp = [] →
    step s = .next { s with sched := ts }) ∧
  (s.sched = [] → step s = .next s)

/-- R74: the data field of an END beat influences neither state nor output. -/
def Obligations.DataOfAnEndBeatIsIgnored : Prop :=
  ∀ s : State,
  (∀ d d' : Bit, step (s.withFetchBeat (.bs (1#1 ++ d))) = step (s.withFetchBeat (.bs (1#1 ++ d')))) ∧
  (∀ d d' : Bit, step (s.withFetchBeat (.bd (1#1 ++ d))) = step (s.withFetchBeat (.bd (1#1 ++ d')))) ∧
  (∀ d d' : Byte, step (s.withFetchBeat (.cs (1#1 ++ d))) = step (s.withFetchBeat (.cs (1#1 ++ d')))) ∧
  (∀ d d' : Byte, step (s.withFetchBeat (.cd (1#1 ++ d))) = step (s.withFetchBeat (.cd (1#1 ++ d'))))

/-- The caller's handling of the streams (R54, R56, R60, R199): a delivered beat goes behind those waiting,
the oldest output event is the one taken, a connection turns `OUT v` into `SYM v` and `DONE` into `END`
and stops on an ABORT, and readiness is the caller's. -/
def Obligations.CallerMovesStreamsInOrder : Prop :=
  ∀ (s : State) (ts : List Turn),
  (∀ w, s.sched = .send (.bs w) :: ts →
    step s = .next { s with bs := { s.bs with inp := s.bs.inp ++ [w] }, sched := ts }) ∧
  (∀ w, s.sched = .send (.bd w) :: ts →
    step s = .next { s with bd := { s.bd with inp := s.bd.inp ++ [w] }, sched := ts }) ∧
  (∀ w, s.sched = .send (.cs w) :: ts →
    step s = .next { s with cs := { s.cs with inp := s.cs.inp ++ [w] }, sched := ts }) ∧
  (∀ w, s.sched = .send (.cd w) :: ts →
    step s = .next { s with cd := { s.cd with inp := s.cd.inp ++ [w] }, sched := ts }) ∧
  (s.sched = .take .bs :: ts → step s = .next { s with bs := { s.bs with out := s.bs.out.tail }, sched := ts }) ∧
  (s.sched = .take .bd :: ts → step s = .next { s with bd := { s.bd with out := s.bd.out.tail }, sched := ts }) ∧
  (s.sched = .take .cs :: ts → step s = .next { s with cs := { s.cs with out := s.cs.out.tail }, sched := ts }) ∧
  (s.sched = .take .cd :: ts → step s = .next { s with cd := { s.cd with out := s.cd.out.tail }, sched := ts }) ∧
  (∀ v es, s.sched = .connect .bits :: ts → s.bs.out = .out v :: es →
    step s = .next { s with bs := { s.bs with out := es },
                            bd := { s.bd with inp := s.bd.inp ++ [0#1 ++ v] }, sched := ts }) ∧
  (∀ es, s.sched = .connect .bits :: ts → s.bs.out = .done :: es →
    step s = .next { s with bs := { s.bs with out := es },
                            bd := { s.bd with inp := s.bd.inp ++ [0b10#2] }, sched := ts }) ∧
  (∀ k off es, s.sched = .connect .bits :: ts → s.bs.out = .abort k off :: es →
    step s = .fault .abortFromStuffer) ∧
  (∀ v es, s.sched = .connect .bytes :: ts → s.cs.out = .out v :: es →
    step s = .next { s with cs := { s.cs with out := es },
                            cd := { s.cd with inp := s.cd.inp ++ [0#1 ++ v] }, sched := ts }) ∧
  (∀ es, s.sched = .connect .bytes :: ts → s.cs.out = .done :: es →
    step s = .next { s with cs := { s.cs with out := es },
                            cd := { s.cd with inp := s.cd.inp ++ [0x100#9] }, sched := ts }) ∧
  (∀ k off es, s.sched = .connect .bytes :: ts → s.cs.out = .abort k off :: es →
    step s = .fault .abortFromStuffer) ∧
  (∀ b, s.sched = .driveReady .bs b :: ts → step s = .next { s with bs := { s.bs with ready := b }, sched := ts }) ∧
  (∀ b, s.sched = .driveReady .bd b :: ts → step s = .next { s with bd := { s.bd with ready := b }, sched := ts }) ∧
  (∀ b, s.sched = .driveReady .cs b :: ts → step s = .next { s with cs := { s.cs with ready := b }, sched := ts }) ∧
  (∀ b, s.sched = .driveReady .cd b :: ts → step s = .next { s with cd := { s.cd with ready := b }, sched := ts })

/-- R34, R63, R247: the configuration may change to any value between transactions and the first step after
sees it; a change inside a transaction is refused (spec/93_implementation_defined.md U2). -/
def Obligations.ConfigurationChangesOnlyBetweenTransactions : Prop :=
  ∀ (s : State) (ts : List Turn) (c : CharCfg),
  (s.sched = .driveCsCfg c :: ts → s.cs.regs.opened = false ∨ c = s.csCfg →
    step s = .next { s with csCfg := c, sched := ts }) ∧
  (s.sched = .driveCsCfg c :: ts → s.cs.regs.opened = true → c ≠ s.csCfg →
    step s = .refused .cfgChangedInTransaction) ∧
  (s.sched = .driveCdCfg c :: ts → s.cd.regs.idx = 0 ∨ c = s.cdCfg →
    step s = .next { s with cdCfg := c, sched := ts }) ∧
  (s.sched = .driveCdCfg c :: ts → s.cd.regs.idx ≠ 0 → c ≠ s.cdCfg →
    step s = .refused .cfgChangedInTransaction) ∧
  (s.cs.regs.opened = false → s.sched = .driveCsCfg c :: .unit .cs :: ts → c.flag ≠ c.esc →
    s.cs.rst = false → s.cs.ready = true → s.cs.inp = [0x100] →
    Host.Core.run Sys2Proof.core 2 s = .next { s with
      cs := { s.cs with inp := [], out := s.cs.out ++ [.out c.flag, .out c.flag, .done] },
      csCfg := c, sched := ts })

/-- R37, R240, R241: asserting the reset input writes every register with its reset value, emits nothing and
leaves the streams, in the middle of a transaction too. That the registers are written when reset is
asserted is the model's choice (log 11); R240 fixes only what they hold when it is released. -/
def Obligations.AssertedResetAbandonsTheTransaction : Prop :=
  ∀ (s : State) (ts : List Turn),
  (s.sched = .driveRst .bs true :: ts →
    step s = .next { s with bs := { s.bs with regs := ⟨0⟩, rst := true }, sched := ts }) ∧
  (s.sched = .driveRst .bd true :: ts →
    step s = .next { s with bd := { s.bd with regs := ⟨0, 0, .none, 0⟩, rst := true }, sched := ts }) ∧
  (s.sched = .driveRst .cs true :: ts →
    step s = .next { s with cs := { s.cs with regs := ⟨false⟩, rst := true }, sched := ts }) ∧
  (s.sched = .driveRst .cd true :: ts →
    step s = .next { s with
      cd := { s.cd with regs := ⟨.awaitFlag, 0, .none, 0, false⟩, rst := true }, sched := ts })

/-- R240: while reset is asserted a unit consumes no input event and produces no output event, whatever turns
it is given; when it is released, every register holds its reset value. The states are those of the
invariant, which `Obligations.EveryStepKeepsTheInvariant` states. The model's choices, not the rule's: beats
that wait on the input stream stay there through the reset and its release (log 11), and a turn given to a
waiting unit is used up (log 2). -/
def Obligations.ReleasedUnitIsInItsResetState : Prop :=
  ∀ (s : State) (ts : List Turn), s.Inv →
  (s.bs.rst = true →
    (s.sched = .unit .bs :: ts → step s = .next { s with sched := ts }) ∧
    (s.sched = .driveRst .bs false :: ts →
      step s = .next { s with bs := { s.bs with regs := ⟨0⟩, rst := false }, sched := ts })) ∧
  (s.bd.rst = true →
    (s.sched = .unit .bd :: ts → step s = .next { s with sched := ts }) ∧
    (s.sched = .driveRst .bd false :: ts →
      step s = .next { s with bd := { s.bd with regs := ⟨0, 0, .none, 0⟩, rst := false }, sched := ts })) ∧
  (s.cs.rst = true →
    (s.sched = .unit .cs :: ts → step s = .next { s with sched := ts }) ∧
    (s.sched = .driveRst .cs false :: ts →
      step s = .next { s with cs := { s.cs with regs := ⟨false⟩, rst := false }, sched := ts })) ∧
  (s.cd.rst = true →
    (s.sched = .unit .cd :: ts → step s = .next { s with sched := ts }) ∧
    (s.sched = .driveRst .cd false :: ts →
      step s = .next { s with
        cd := { s.cd with regs := ⟨.awaitFlag, 0, .none, 0, false⟩, rst := false }, sched := ts }))

/-! ## The eight events -/

/-- R101: `BS.SYM v`. -/
def Obligations.BsSymCopiesAndStuffs : Prop :=
  (∀ v, decodeBeat (.bs (0#1 ++ v)) = .bsSym v) ∧
  (∀ s : State, exec (.bsSym 0) s = .next { s with
    bs := { s.bs with regs := { cnt := 0 }, out := s.bs.out ++ [.out 0] } }) ∧
  (∀ s : State, s.bs.regs.cnt.toNat + 1 = 5 → exec (.bsSym 1) s = .next { s with
    bs := { s.bs with regs := { cnt := 0 }, out := s.bs.out ++ [.out 1, .out 0] } }) ∧
  (∀ s : State, s.bs.regs.cnt.toNat + 1 < 5 → ∃ n, n.toNat = s.bs.regs.cnt.toNat + 1 ∧
    exec (.bsSym 1) s = .next { s with
      bs := { s.bs with regs := { cnt := n }, out := s.bs.out ++ [.out 1] } }) ∧
  (∀ v s, ∃ t, exec (.bsSym v) s = .next t)

/-- R102: `BS.END`, in every state. -/
def Obligations.BsEndClosesTheTransaction : Prop :=
  (∀ d : Bit, decodeBeat (.bs (1#1 ++ d)) = .bsEnd) ∧
  (∀ s : State, exec .bsEnd s = .next { s with
    bs := { s.bs with regs := { cnt := 0 }, out := s.bs.out ++ [.done] } })

/-- R121: `BD.SYM v`, on every legal value of `BD.cnt`. -/
def Obligations.BdSymCopiesDiscardsOrLatches : Prop :=
  (∀ v, decodeBeat (.bd (0#1 ++ v)) = .bdSym v) ∧
  (∀ s : State, s.bd.regs.err = .none → s.bd.regs.cnt = 5 → exec (.bdSym 0) s = .next { s with
    bd := { s.bd with regs := { s.bd.regs with cnt := 0, idx := s.bd.regs.idx + 1 } } }) ∧
  (∀ s : State, s.bd.regs.err = .none → s.bd.regs.cnt = 5 → exec (.bdSym 1) s = .next { s with
    bd := { s.bd with
      regs := { s.bd.regs with err := .pv, eoff := s.bd.regs.idx, idx := s.bd.regs.idx + 1 } } }) ∧
  (∀ s : State, s.bd.regs.err = .none → s.bd.regs.cnt.toNat < 5 →
    ∃ n, n.toNat = s.bd.regs.cnt.toNat + 1 ∧ exec (.bdSym 1) s = .next { s with
      bd := { s.bd with regs := { s.bd.regs with cnt := n, idx := s.bd.regs.idx + 1 },
                        out := s.bd.out ++ [.out 1] } }) ∧
  (∀ s : State, s.bd.regs.err = .none → s.bd.regs.cnt.toNat < 5 → exec (.bdSym 0) s = .next { s with
    bd := { s.bd with regs := { s.bd.regs with cnt := 0, idx := s.bd.regs.idx + 1 },
                      out := s.bd.out ++ [.out 0] } }) ∧
  (∀ v (s : State), s.bd.regs.err ≠ .none → exec (.bdSym v) s = .next { s with
    bd := { s.bd with regs := { s.bd.regs with idx := s.bd.regs.idx + 1 } } })

/-- R122: `BD.END`, in every state; R218: on a failure ABORT is appended and the unit is reset. -/
def Obligations.BdEndReportsTheResult : Prop :=
  (∀ d : Bit, decodeBeat (.bd (1#1 ++ d)) = .bdEnd) ∧
  (∀ s : State, s.bd.regs.err = .pv → exec .bdEnd s = .next { s with
    bd := { s.bd with regs := ⟨0, 0, .none, 0⟩,
                      out := s.bd.out ++ [.abort .protocolViolation s.bd.regs.eoff] } }) ∧
  (∀ s : State, s.bd.regs.err ≠ .pv → s.bd.regs.cnt = 5 → exec .bdEnd s = .next { s with
    bd := { s.bd with regs := ⟨0, 0, .none, 0⟩,
                      out := s.bd.out ++ [.abort .malformedFrame s.bd.regs.idx] } }) ∧
  (∀ s : State, s.bd.regs.err ≠ .pv → s.bd.regs.cnt ≠ 5 → exec .bdEnd s = .next { s with
    bd := { s.bd with regs := ⟨0, 0, .none, 0⟩, out := s.bd.out ++ [.done] } })

/-- R141: `CS.SYM v`, with `cfg.flag != cfg.esc`. -/
def Obligations.CsSymEmitsFlagOnceAndEscapes : Prop :=
  (∀ v : Byte, decodeBeat (.cs (0#1 ++ v)) = .csSym v) ∧
  (∀ v (s : State), s.csCfg.flag ≠ s.csCfg.esc → exec (.csSym v) s = .next { s with
    cs := { s.cs with
      regs := { opened := true }
      out := s.cs.out ++ (if s.cs.regs.opened = false then [.out s.csCfg.flag] else []) ++
        (if v = s.csCfg.flag ∨ v = s.csCfg.esc then [.out s.csCfg.esc, .out v] else [.out v]) } })

/-- R142: `CS.END`, with `cfg.flag != cfg.esc`. -/
def Obligations.CsEndEmitsTheTrailingFlag : Prop :=
  (∀ d : Byte, decodeBeat (.cs (1#1 ++ d)) = .csEnd) ∧
  (∀ s : State, s.csCfg.flag ≠ s.csCfg.esc → exec .csEnd s = .next { s with
    cs := { s.cs with
      regs := { opened := false }
      out := s.cs.out ++ (if s.cs.regs.opened = false then [.out s.csCfg.flag] else []) ++
        [.out s.csCfg.flag, .done] } })

/-- R161, R163: `CD.SYM v`, with `cfg.flag != cfg.esc`: `CD.lastflag` and `CD.idx` in every case, and for each
receiver state what the symbol does. -/
def Obligations.CdSymMovesTheReceiver : Prop :=
  (∀ v : Byte, decodeBeat (.cd (0#1 ++ v)) = .cdSym v) ∧
  (∀ v (s : State), s.cdCfg.flag ≠ s.cdCfg.esc →
    ∃ (r : CdRegs) (vs : ByteSequence),
      exec (.cdSym v) s = .next { s with
        cd := { s.cd with regs := r, out := s.cd.out ++ vs.map OutEvent.out } } ∧
      r.idx = s.cd.regs.idx + 1 ∧ (r.lastflag = true ↔ v = s.cdCfg.flag) ∧
      (s.cd.regs.err ≠ .none →
        r.st = s.cd.regs.st ∧ r.err = s.cd.regs.err ∧ r.eoff = s.cd.regs.eoff ∧ vs = []) ∧
      (s.cd.regs.err = .none → s.cd.regs.st = .awaitFlag → v = s.cdCfg.flag →
        r.st = .inFrame ∧ r.err = .none ∧ r.eoff = s.cd.regs.eoff ∧ vs = []) ∧
      (s.cd.regs.err = .none → s.cd.regs.st = .awaitFlag → v ≠ s.cdCfg.flag →
        r.st = .awaitFlag ∧ r.err = .mf ∧ r.eoff = s.cd.regs.idx ∧ vs = []) ∧
      (s.cd.regs.err = .none → s.cd.regs.st = .inFrame → v = s.cdCfg.esc →
        r.st = .escapeNext ∧ r.err = .none ∧ r.eoff = s.cd.regs.eoff ∧ vs = []) ∧
      (s.cd.regs.err = .none → s.cd.regs.st = .inFrame → v = s.cdCfg.flag →
        r.st = .done ∧ r.err = .none ∧ r.eoff = s.cd.regs.idx ∧ vs = []) ∧
      (s.cd.regs.err = .none → s.cd.regs.st = .inFrame → v ≠ s.cdCfg.esc → v ≠ s.cdCfg.flag →
        r.st = .inFrame ∧ r.err = .none ∧ r.eoff = s.cd.regs.eoff ∧ vs = [v]) ∧
      (s.cd.regs.err = .none → s.cd.regs.st = .escapeNext →
        r.st = .inFrame ∧ r.err = .none ∧ r.eoff = s.cd.regs.eoff ∧ vs = [v]) ∧
      (s.cd.regs.err = .none → s.cd.regs.st = .done →
        r.st = .done ∧ r.err = .pv ∧ r.eoff = s.cd.regs.eoff ∧ vs = []))

/-- R162: `CD.END`, with `cfg.flag != cfg.esc`; in every case one terminator and all five registers at
their reset values. -/
def Obligations.CdEndReportsTheResult : Prop :=
  (∀ d : Byte, decodeBeat (.cd (1#1 ++ d)) = .cdEnd) ∧
  (∀ s : State, s.cdCfg.flag ≠ s.cdCfg.esc →
    ∃ e : OutEvent Byte,
      exec .cdEnd s = .next { s with
        cd := { s.cd with regs := ⟨.awaitFlag, 0, .none, 0, false⟩, out := s.cd.out ++ [e] } } ∧
      (s.cd.regs.err = .mf → e = .abort .malformedFrame s.cd.regs.eoff) ∧
      (s.cd.regs.err = .pv → s.cd.regs.lastflag = true → e = .abort .protocolViolation s.cd.regs.eoff) ∧
      (s.cd.regs.err = .pv → s.cd.regs.lastflag = false → e = .abort .malformedFrame s.cd.regs.idx) ∧
      (s.cd.regs.err = .none → s.cd.regs.st = .done → e = .done) ∧
      (s.cd.regs.err = .none → s.cd.regs.st ≠ .done → e = .abort .malformedFrame s.cd.regs.idx))

/-- spec/93_implementation_defined.md U1, R247: with `cfg.flag == cfg.esc` every event and every transaction
of the character units is refused, and the bit units do not care. -/
def Obligations.EqualFlagAndEscapeAreRefused : Prop :=
  ∀ s : State,
  (s.csCfg.flag = s.csCfg.esc →
    (∀ v, exec (.csSym v) s = .refused .flagEqualsEsc) ∧ exec .csEnd s = .refused .flagEqualsEsc ∧
    (∀ x, exec (.charStuff x) s = .refused .flagEqualsEsc)) ∧
  (s.cdCfg.flag = s.cdCfg.esc →
    (∀ v, exec (.cdSym v) s = .refused .flagEqualsEsc) ∧ exec .cdEnd s = .refused .flagEqualsEsc ∧
    (∀ y, exec (.charDestuff y) s = .refused .flagEqualsEsc))

/-- R52: how many output events each event appends. -/
def Obligations.OutputEventsPerStepAreBounded : Prop :=
  ∀ s : State,
  (∀ v, ∃ t, ∃ vs : BitSequence, exec (.bsSym v) s = .next t ∧ t.bs.out = s.bs.out ++ vs.map OutEvent.out ∧
    1 ≤ vs.length ∧ vs.length ≤ 2) ∧
  (∃ t, exec .bsEnd s = .next t ∧ t.bs.out = s.bs.out ++ [.done]) ∧
  (∀ v, ∃ t, ∃ vs : BitSequence, exec (.bdSym v) s = .next t ∧ t.bd.out = s.bd.out ++ vs.map OutEvent.out ∧ vs.length ≤ 1) ∧
  (∃ t e, exec .bdEnd s = .next t ∧ t.bd.out = s.bd.out ++ [e] ∧ ∀ v, e ≠ .out v) ∧
  (s.csCfg.flag ≠ s.csCfg.esc →
    (∀ v, ∃ t, ∃ vs : ByteSequence, exec (.csSym v) s = .next t ∧ t.cs.out = s.cs.out ++ vs.map OutEvent.out ∧
      1 ≤ vs.length ∧ vs.length ≤ 3) ∧
    (∃ t, ∃ vs : ByteSequence, exec .csEnd s = .next t ∧ t.cs.out = s.cs.out ++ vs.map OutEvent.out ++ [.done] ∧
      1 ≤ vs.length ∧ vs.length ≤ 2)) ∧
  (s.cdCfg.flag ≠ s.cdCfg.esc →
    (∀ v, ∃ t, ∃ vs : ByteSequence, exec (.cdSym v) s = .next t ∧ t.cd.out = s.cd.out ++ vs.map OutEvent.out ∧ vs.length ≤ 1) ∧
    (∃ t e, exec .cdEnd s = .next t ∧ t.cd.out = s.cd.out ++ [e] ∧ ∀ v, e ≠ .out v))

/-! ## Reset values and invariants -/

/-- R37: the reset value of every register, right after reset and after every END. The configuration inputs
have none. -/
def Obligations.ResetAndEveryEndGiveTheResetValues : Prop :=
  State.reset.bs.regs = ⟨0⟩ ∧ State.reset.bd.regs = ⟨0, 0, .none, 0⟩ ∧ State.reset.cs.regs = ⟨false⟩ ∧
  State.reset.cd.regs = ⟨.awaitFlag, 0, .none, 0, false⟩ ∧
  (∀ s t, exec .bsEnd s = .next t → t.bs.regs = ⟨0⟩) ∧
  (∀ s t, exec .bdEnd s = .next t → t.bd.regs = ⟨0, 0, .none, 0⟩) ∧
  (∀ s t, exec .csEnd s = .next t → t.cs.regs = ⟨false⟩) ∧
  (∀ s t, exec .cdEnd s = .next t → t.cd.regs = ⟨.awaitFlag, 0, .none, 0, false⟩)

/-- The invariant of the block holds right after reset. -/
def Obligations.InvariantHoldsAfterReset : Prop := State.reset.Inv

/-- R38, R51, R215, R240: every step keeps the invariant of the block. -/
def Obligations.EveryStepKeepsTheInvariant : Prop :=
  ∀ s t, s.Inv → step s = .next t → t.Inv

/-- R190, R247: from a state of the invariant every step is a next state as long as the caller keeps its duty
on the configuration. -/
def Obligations.NoStepStopsWhileTheCallerKeepsItsDuty : Prop :=
  ∀ s : State, s.Inv → s.CallerKeepsCfg → ∃ t, step s = .next t

/-- R222: only END and the reset input end a transaction. -/
def Obligations.OnlyEndAndResetEndATransaction : Prop :=
  ∀ (s t : State), step s = .next t →
  (s.bd.regs.idx ≠ 0 → t.bd.regs.idx = 0 →
    (∃ w ws ts, s.sched = .unit .bd :: ts ∧ s.bd.inp = w :: ws ∧ decodeBeat (.bd w) = .bdEnd) ∨
    (∃ ts, s.sched = .driveRst .bd true :: ts)) ∧
  (s.cs.regs.opened = true → t.cs.regs.opened = false →
    (∃ w ws ts, s.sched = .unit .cs :: ts ∧ s.cs.inp = w :: ws ∧ decodeBeat (.cs w) = .csEnd) ∨
    (∃ ts, s.sched = .driveRst .cs true :: ts)) ∧
  (s.cd.regs.idx ≠ 0 → t.cd.regs.idx = 0 →
    (∃ w ws ts, s.sched = .unit .cd :: ts ∧ s.cd.inp = w :: ws ∧ decodeBeat (.cd w) = .cdEnd) ∨
    (∃ ts, s.sched = .driveRst .cd true :: ts))

/-- R20, R34, R220, R224: a unit's turn changes nothing of another unit and no configuration input. -/
def Obligations.UnitTurnTouchesOnlyItsUnit : Prop :=
  ∀ (s t : State) (ts : List Turn), step s = .next t →
  (s.sched = .unit .bs :: ts → t = { s with bs := t.bs, sched := ts }) ∧
  (s.sched = .unit .bd :: ts → t = { s with bd := t.bd, sched := ts }) ∧
  (s.sched = .unit .cs :: ts → t = { s with cs := t.cs, sched := ts }) ∧
  (s.sched = .unit .cd :: ts → t = { s with cd := t.cd, sched := ts })

/-- R60: any interleaving of the steps of the units gives the same outcome: two schedules that give the
units the same turns in different orders end alike. -/
def Obligations.InterleavingDoesNotMatter : Prop :=
  ∀ (ps qs : List Port) (ts : List Turn) (s : State), ps.Perm qs →
    Host.Core.run Sys2Proof.core ps.length { s with sched := ps.map .unit ++ ts } =
      Host.Core.run Sys2Proof.core qs.length { s with sched := qs.map .unit ++ ts }

/-! ## Transactions -/

/-- R103: the step machine of BS computes `bitStuff`, ends in the reset state, and `BS.cnt` after each SYM is
the `c` that the contract passes on. -/
def Obligations.BitStuffTransactionIsTheContract : Prop :=
  (∀ x (s : State), s.bs.regs = .reset → exec (.bitStuff x) s = .next { s with
    bs := { s.bs with out := s.bs.out ++ (bitStuff x).map OutEvent.out ++ [.done] } }) ∧
  (∀ x (s : State), s.bs.regs = .reset → ∃ t y, runEvents (x.map Instr.bsSym) s = .next t ∧
    t.bs.out = s.bs.out ++ y.map OutEvent.out ∧
    ∀ x', bitStuff (x ++ x') = y ++ stuffBitsFrom x' t.bs.regs.cnt.toNat)

/-- R123: the step machine of BD computes `bitDestuff`, kind and offset included, and ends in the reset
state. -/
def Obligations.BitDestuffTransactionIsTheContract : Prop :=
  ∀ y (s : State), s.bd.regs = .reset →
  (∀ x, bitDestuff y = .ok x → exec (.bitDestuff y) s = .next { s with
    bd := { s.bd with out := s.bd.out ++ x.map OutEvent.out ++ [.done] } }) ∧
  (∀ k off, bitDestuff y = .fail k off → ∃ void : BitSequence, exec (.bitDestuff y) s = .next { s with
    bd := { s.bd with out := s.bd.out ++ void.map OutEvent.out ++ [.abort k off] } })

/-- R143, R83: the step machine of CS computes `charStuff`, ends in the reset state, and the frame has the
layout of R83. The layout is claimed for every configuration; at `FLAG == ESC`, which the spec refuses (U1), it
is the model's choice (log 22). -/
def Obligations.CharStuffTransactionIsTheContract : Prop :=
  (∀ x (s : State), s.csCfg.flag ≠ s.csCfg.esc → s.cs.regs = .reset →
    exec (.charStuff x) s = .next { s with
      cs := { s.cs with out := s.cs.out ++ (charStuff s.csCfg x).map OutEvent.out ++ [.done] } }) ∧
  (∀ (c : CharCfg) (x : ByteSequence), charStuff c x =
    c.flag :: x.flatMap (fun b => if b = c.flag ∨ b = c.esc then [c.esc, b] else [b]) ++ [c.flag])

/-- R165: the step machine of CD computes `charDestuff`, kind and offset included, and ends in the reset
state. -/
def Obligations.CharDestuffTransactionIsTheContract : Prop :=
  ∀ y (s : State), s.cdCfg.flag ≠ s.cdCfg.esc → s.cd.regs = .reset →
  (∀ x, charDestuff s.cdCfg y = .ok x → exec (.charDestuff y) s = .next { s with
    cd := { s.cd with out := s.cd.out ++ x.map OutEvent.out ++ [.done] } }) ∧
  (∀ k off, charDestuff s.cdCfg y = .fail k off → ∃ void : ByteSequence,
    exec (.charDestuff y) s = .next { s with
      cd := { s.cd with out := s.cd.out ++ void.map OutEvent.out ++ [.abort k off] } })

/-- A transaction completes in every state, a unit in the middle of another transaction included (R61, R245,
log 14), with nothing changed but its unit's registers and output, and the registers at their reset
values. -/
def Obligations.TransactionsCompleteInEveryState : Prop :=
  ∀ s : State,
  (∀ x, ∃ es, exec (.bitStuff x) s = .next { s with
    bs := { s.bs with regs := .reset, out := s.bs.out ++ es } }) ∧
  (∀ y, ∃ es, exec (.bitDestuff y) s = .next { s with
    bd := { s.bd with regs := .reset, out := s.bd.out ++ es } }) ∧
  (s.csCfg.flag ≠ s.csCfg.esc → ∀ x, ∃ es, exec (.charStuff x) s = .next { s with
    cs := { s.cs with regs := .reset, out := s.cs.out ++ es } }) ∧
  (s.cdCfg.flag ≠ s.cdCfg.esc → ∀ y, ∃ es, exec (.charDestuff y) s = .next { s with
    cd := { s.cd with regs := .reset, out := s.cd.out ++ es } })

/-- R86: as many steps as a transaction has events, the unit's beats waiting and its turns scheduled, come to
`exec` of the transaction (R251: `n + 1` steps). -/
def Obligations.StepsOfAUnitRunTheTransaction : Prop :=
  ∀ (s : State) (ts : List Turn),
  (∀ (x : BitSequence) (rest : List BitBeat), s.bs.rst = false → s.bs.ready = true → s.bs.inp = bitBeats x ++ rest →
    s.sched = List.replicate (x.length + 1) (Turn.unit .bs) ++ ts →
    Host.Core.run Sys2Proof.core (x.length + 1) s =
      exec (.bitStuff x) { s with bs := { s.bs with inp := rest }, sched := ts }) ∧
  (∀ (y : BitSequence) (rest : List BitBeat), s.bd.rst = false → s.bd.ready = true → s.bd.inp = bitBeats y ++ rest →
    s.sched = List.replicate (y.length + 1) (Turn.unit .bd) ++ ts →
    Host.Core.run Sys2Proof.core (y.length + 1) s =
      exec (.bitDestuff y) { s with bd := { s.bd with inp := rest }, sched := ts }) ∧
  (∀ (x : ByteSequence) (rest : List ByteBeat), s.cs.rst = false → s.cs.ready = true → s.cs.inp = byteBeats x ++ rest →
    s.sched = List.replicate (x.length + 1) (Turn.unit .cs) ++ ts →
    Host.Core.run Sys2Proof.core (x.length + 1) s =
      exec (.charStuff x) { s with cs := { s.cs with inp := rest }, sched := ts }) ∧
  (∀ (y : ByteSequence) (rest : List ByteBeat), s.cd.rst = false → s.cd.ready = true → s.cd.inp = byteBeats y ++ rest →
    s.sched = List.replicate (y.length + 1) (Turn.unit .cd) ++ ts →
    Host.Core.run Sys2Proof.core (y.length + 1) s =
      exec (.charDestuff y) { s with cd := { s.cd with inp := rest }, sched := ts })

/-- R14: the result is read from the output events before the terminator; without a terminator there is
none. -/
def Obligations.ResultIsReadAtTheTerminator : Prop :=
  ∀ (α : Type) (vs : List α) (es : List (OutEvent α)),
  readResult (vs.map OutEvent.out ++ .done :: es) = some (.ok vs, es) ∧
  (∀ k off, readResult (vs.map OutEvent.out ++ .abort k off :: es) = some (.fail k off, es)) ∧
  readResult (vs.map OutEvent.out) = none

/-- R200: `k` transactions in a row on one unit give the `k` results of the frame-level function, in order,
and leave the unit in its reset state. -/
def Obligations.TransactionsAreIndependent : Prop :=
  ∀ s : State,
  (∀ xs : List BitSequence, s.bs.regs = .reset → ∃ t outs,
    runEvents (xs.map Instr.bitStuff) s = .next t ∧ t.bs.regs = .reset ∧ t.bs.out = s.bs.out ++ outs.flatten ∧
    List.Forall₂ (fun x es => readResult es = some (.ok (bitStuff x), [])) xs outs) ∧
  (∀ ys : List BitSequence, s.bd.regs = .reset → ∃ t outs,
    runEvents (ys.map Instr.bitDestuff) s = .next t ∧ t.bd.regs = .reset ∧ t.bd.out = s.bd.out ++ outs.flatten ∧
    List.Forall₂ (fun y es => readResult es = some (bitDestuff y, [])) ys outs) ∧
  (∀ xs : List ByteSequence, s.cs.regs = .reset → s.csCfg.flag ≠ s.csCfg.esc → ∃ t outs,
    runEvents (xs.map Instr.charStuff) s = .next t ∧ t.cs.regs = .reset ∧ t.cs.out = s.cs.out ++ outs.flatten ∧
    List.Forall₂ (fun x es => readResult es = some (.ok (charStuff s.csCfg x), [])) xs outs) ∧
  (∀ ys : List ByteSequence, s.cd.regs = .reset → s.cdCfg.flag ≠ s.cdCfg.esc → ∃ t outs,
    runEvents (ys.map Instr.charDestuff) s = .next t ∧ t.cd.regs = .reset ∧ t.cd.out = s.cd.out ++ outs.flatten ∧
    List.Forall₂ (fun y es => readResult es = some (charDestuff s.cdCfg y, [])) ys outs)

/-- R25, R30, R33: the index counters count the symbols of the transaction. -/
def Obligations.IndexCountersCountSymbols : Prop :=
  ∀ s : State,
  (∀ ys : BitSequence, ∃ t, runEvents (ys.map Instr.bdSym) s = .next t ∧
    t.bd.regs.idx = s.bd.regs.idx + ys.length) ∧
  (s.cdCfg.flag ≠ s.cdCfg.esc → ∀ ys : ByteSequence, ∃ t, runEvents (ys.map Instr.cdSym) s = .next t ∧
    t.cd.regs.idx = s.cd.regs.idx + ys.length)

/-- R26, R31, R217 (decision D12): after a violation the unit consumes and ignores every further symbol: the
latches are frozen, nothing is emitted, only the index (and `CD.lastflag`) follow the input. -/
def Obligations.LatchedErrorIsFrozenUntilEnd : Prop :=
  ∀ s : State,
  (s.bd.regs.err ≠ .none → ∀ ys : BitSequence, runEvents (ys.map Instr.bdSym) s = .next { s with
    bd := { s.bd with regs := { s.bd.regs with idx := s.bd.regs.idx + ys.length } } }) ∧
  (s.cdCfg.flag ≠ s.cdCfg.esc → s.cd.regs.err ≠ .none → ∀ ys : ByteSequence,
    runEvents (ys.map Instr.cdSym) s = .next { s with
      cd := { s.cd with regs := { s.cd.regs with
        idx := s.cd.regs.idx + ys.length
        lastflag := (ys.getLast?.map (fun v => v == s.cdCfg.flag)).getD s.cd.regs.lastflag } } })

/-- R199: connected units recover the payload. The stuffer's transaction, the caller's forwarding of every
output event, and the destuffer's transaction, one after the other; R60 gives the other
interleavings. -/
def Obligations.ConnectedUnitsRecoverThePayload : Prop :=
  ∀ (s : State) (ts : List Turn),
  (∀ (x : BitSequence) (m : Nat), m = (bitStuff x).length + 1 →
    s.bs.regs = .reset → s.bs.rst = false → s.bs.ready = true → s.bs.inp = bitBeats x → s.bs.out = [] →
    s.bd.regs = .reset → s.bd.rst = false → s.bd.ready = true → s.bd.inp = [] →
    s.sched = List.replicate (x.length + 1) (Turn.unit .bs) ++ List.replicate m (Turn.connect .bits) ++
      List.replicate m (Turn.unit .bd) ++ ts →
    Host.Core.run Sys2Proof.core (x.length + 1 + m + m) s = .next { s with
      bs := { s.bs with inp := [] }
      bd := { s.bd with out := s.bd.out ++ x.map OutEvent.out ++ [.done] }
      sched := ts }) ∧
  (∀ (x : ByteSequence) (m : Nat), m = (charStuff s.csCfg x).length + 1 →
    s.csCfg = s.cdCfg → s.csCfg.flag ≠ s.csCfg.esc →
    s.cs.regs = .reset → s.cs.rst = false → s.cs.ready = true → s.cs.inp = byteBeats x → s.cs.out = [] →
    s.cd.regs = .reset → s.cd.rst = false → s.cd.ready = true → s.cd.inp = [] →
    s.sched = List.replicate (x.length + 1) (Turn.unit .cs) ++ List.replicate m (Turn.connect .bytes) ++
      List.replicate m (Turn.unit .cd) ++ ts →
    Host.Core.run Sys2Proof.core (x.length + 1 + m + m) s = .next { s with
      cs := { s.cs with inp := [] }
      cd := { s.cd with out := s.cd.out ++ x.map OutEvent.out ++ [.done] }
      sched := ts })

/-! ## The laws of the frame-level functions -/

/-- R191: `bitDestuff(bitStuff(x)) == ok(x)`. -/
def Obligations.BitRoundTrip : Prop := ∀ x, bitDestuff (bitStuff x) = .ok x

/-- R192: `charDestuff(charStuff(x)) == ok(x)`. -/
def Obligations.CharRoundTrip : Prop :=
  ∀ (c : CharCfg) (x : ByteSequence), c.flag ≠ c.esc → charDestuff c (charStuff c x) = .ok x

/-- R193: no six consecutive ones, no five at the end, a zero after every five; one to four at the end are
left as they are. -/
def Obligations.BitStuffedFormHasNoLongRun : Prop :=
  (∀ x, ¬ List.replicate 6 1#1 <:+: bitStuff x) ∧
  (∀ x, ¬ List.replicate 5 1#1 <:+ bitStuff x) ∧
  (∀ x i, ((bitStuff x).drop i).take 5 = List.replicate 5 1#1 → (bitStuff x)[i + 5]? = some 0#1) ∧
  (∀ x k, k ≤ 4 → bitStuff (x ++ 0#1 :: List.replicate k 1#1) = bitStuff (x ++ [0#1]) ++ List.replicate k 1#1)

/-- R194: the interior of a stuffed frame has no unescaped FLAG or ESC. -/
def Obligations.CharStuffedInteriorIsEscaped : Prop :=
  ∀ (c : CharCfg) (x : ByteSequence), c.flag ≠ c.esc → noUnescaped c (interior (charStuff c x)) = true

/-- R195: a stuffed frame starts and ends with FLAG, the empty payload's included. Claimed for every
configuration; at `FLAG == ESC`, which the spec refuses (U1), it is the model's choice (log 22). -/
def Obligations.CharStuffStartsAndEndsWithFlag : Prop :=
  ∀ (c : CharCfg) (x : ByteSequence), (charStuff c x).head? = some c.flag ∧
    (charStuff c x).getLast? = some c.flag ∧ 2 ≤ (charStuff c x).length ∧ charStuff c [] = [c.flag, c.flag]

/-- R196, R84: in a bit-oriented frame the flag pattern stands at the two ends and nowhere else; for the
character form, R194. -/
def Obligations.FlagPatternOnlyAtTheEnds : Prop :=
  (∀ x i, ((bitFrame x).drop i).take 8 = Config.BITFLAG ↔ i = 0 ∨ i = 8 + (bitStuff x).length) ∧
  (∀ (c : CharCfg) (x : ByteSequence), c.flag ≠ c.esc → noUnescaped c (interior (charStuff c x)) = true)

/-- R197: the length bounds of the bit-stuffed form, the upper one reached by all ones, and its image: the
accepted sequences are exactly the stuffed forms, and the two operations are inverse there. -/
def Obligations.BitLengthsAndImage : Prop :=
  (∀ x, x.length ≤ (bitStuff x).length ∧ (bitStuff x).length ≤ x.length + x.length / 5) ∧
  (∀ n, (bitStuff (List.replicate n 1#1)).length = n + n / 5) ∧
  (∀ y, (∃ x, bitStuff x = y) ↔ ∃ x', bitDestuff y = .ok x') ∧
  (∀ y x', bitDestuff y = .ok x' → bitStuff x' = y) ∧
  (∀ x, bitDestuff (bitStuff x) = .ok x)

/-- R144, R198: the exact length of a stuffed frame, its bounds, and the length of a recovered payload; two
different accepted frames may give one payload. The first two clauses are claimed for every
configuration; at `FLAG == ESC`, which the spec refuses (U1), they are the model's choice (log 22). -/
def Obligations.CharLengths : Prop :=
  (∀ (c : CharCfg) (x : ByteSequence), (charStuff c x).length =
    x.length + 2 + x.countP (fun b => b == c.flag || b == c.esc)) ∧
  (∀ (c : CharCfg) (x : ByteSequence),
    x.length + 2 ≤ (charStuff c x).length ∧ (charStuff c x).length ≤ 2 * x.length + 2) ∧
  (∀ (c : CharCfg) (s x : ByteSequence), c.flag ≠ c.esc → charDestuff c s = .ok x → x.length + 2 ≤ s.length) ∧
  (∀ c : CharCfg, c.flag ≠ c.esc → ∃ s s' x, s ≠ s' ∧ charDestuff c s = .ok x ∧ charDestuff c s' = .ok x)

/-- R170: CD accepts an ESC before a byte that needed none and gives that byte; CS never produces such a
frame, so `charStuff(charDestuff(s))` differs from that `s`, while `charDestuff(charStuff(z))` is `z`. -/
def Obligations.NeedlessEscapeIsAcceptedNeverProduced : Prop :=
  ∀ (c : CharCfg) (x y : ByteSequence) (b : Byte), c.flag ≠ c.esc → b ≠ c.flag → b ≠ c.esc →
    charDestuff c (c.flag :: escapeBytes c x ++ [c.esc, b] ++ escapeBytes c y ++ [c.flag]) =
      .ok (x ++ b :: y) ∧
    (∀ z, charStuff c z ≠ c.flag :: escapeBytes c x ++ [c.esc, b] ++ escapeBytes c y ++ [c.flag]) ∧
    (∀ z, charDestuff c (charStuff c z) = .ok z)

/-- R201: what a stuffer has emitted after some symbols depends on those symbols only, whatever follows. The last clause is claimed for every
configuration; at `FLAG == ESC`, which the spec refuses (U1), it is the model's choice (log 22). -/
def Obligations.StuffersDecideWithoutLookingAhead : Prop :=
  (∀ x : BitSequence, ∃ y : BitSequence,
    (∀ s : State, s.bs.regs = .reset → ∃ t, runEvents (x.map Instr.bsSym) s = .next t ∧
      t.bs.out = s.bs.out ++ y.map OutEvent.out) ∧
    ∀ x', y <+: bitStuff (x ++ x')) ∧
  (∀ (c : CharCfg) (x : ByteSequence), c.flag ≠ c.esc → ∃ y : ByteSequence,
    (∀ s : State, s.csCfg = c → s.cs.regs = .reset → ∃ t, runEvents (x.map Instr.csSym) s = .next t ∧
      t.cs.out = s.cs.out ++ y.map OutEvent.out) ∧
    ∀ x', y <+: charStuff c (x ++ x')) ∧
  (∀ x x', bitStuff x <+: bitStuff (x ++ x')) ∧
  (∀ (c : CharCfg) (x x' : ByteSequence), (charStuff c x).dropLast <+: charStuff c (x ++ x'))

/-- R202: a prefix of an accepted sequence may be rejected, and whether a FLAG closes the frame is known only
when END follows. -/
def Obligations.DestufferResultIsKnownOnlyAtEnd : Prop :=
  bitDestuff (List.replicate 5 1#1) = .fail .malformedFrame 5 ∧
  bitDestuff (List.replicate 5 1#1 ++ [0#1]) = .ok (List.replicate 5 1#1) ∧
  (∀ (c : CharCfg) (b : Byte), c.flag ≠ c.esc → b ≠ c.flag → b ≠ c.esc →
    charDestuff c [c.flag, b, c.flag] = .ok [b] ∧
    ∀ rest, charDestuff c (c.flag :: b :: c.flag :: rest ++ [c.flag]) = .fail .protocolViolation 2)

/-- R124, R216: which bit sequences are accepted, and which error is reported where. The counter is the one
of R120: a one adds one, a zero resets it. -/
def Obligations.BitDestuffAcceptance : Prop :=
  ∀ y : BitSequence,
  ((∃ x, bitDestuff y = .ok x) ↔
    ¬ List.replicate 6 1#1 <:+: y ∧ y.foldl (fun n b => if b = 1#1 then n + 1 else 0) 0 ≠ 5) ∧
  (∀ i, bitDestuff y = .fail .protocolViolation i ↔
    5 ≤ i ∧ (y.drop (i - 5)).take 6 = List.replicate 6 1#1 ∧
      ∀ j, j + 5 < i → (y.drop j).take 6 ≠ List.replicate 6 1#1) ∧
  (∀ n, bitDestuff y = .fail .malformedFrame n ↔
    n = y.length ∧ ¬ List.replicate 6 1#1 <:+: y ∧
      y.foldl (fun n b => if b = 1#1 then n + 1 else 0) 0 = 5) ∧
  ((∃ x, bitDestuff y = .ok x) ↔ ∃ x, bitStuff x = y) ∧
  (∀ x, bitDestuff y = .ok x → bitStuff x = y)

/-- R125: an outer flag left on BD's input is a ProtocolViolation at the sixth one of the first flag. -/
def Obligations.FlagLeftOnTheInputIsAViolation : Prop :=
  ∀ p rest : BitSequence, ¬ List.replicate 6 1#1 <:+: p →
    bitDestuff (p ++ Config.BITFLAG ++ rest) = .fail .protocolViolation (p.length + 6)

/-- R213, R216: the causes in CD, in the order the contract checks them, with their offsets. An interior is
read as items, plain bytes and escape pairs; what can stop the reading is an unescaped FLAG, or an ESC as
the last byte; every frame is one of the cases. -/
def Obligations.CdCausesInOrder : Prop :=
  ∀ c : CharCfg, c.flag ≠ c.esc →
  charDestuff c [] = .fail .malformedFrame 0 ∧
  (∀ a s, a ≠ c.flag → charDestuff c (a :: s) = .fail .malformedFrame 0) ∧
  charDestuff c [c.flag] = .fail .malformedFrame 1 ∧
  (∀ s b, b ≠ c.flag → charDestuff c (c.flag :: s ++ [b]) = .fail .malformedFrame (s.length + 2)) ∧
  (∀ its, (∀ i ∈ its, i.legal c = true) →
    charDestuff c (c.flag :: itemBytes c its ++ [c.flag]) = .ok (its.map Item.payload)) ∧
  (∀ its, (∀ i ∈ its, i.legal c = true) →
    charDestuff c (c.flag :: itemBytes c its ++ [c.esc, c.flag]) =
      .fail .malformedFrame ((itemBytes c its).length + 3)) ∧
  (∀ its rest, (∀ i ∈ its, i.legal c = true) →
    charDestuff c (c.flag :: itemBytes c its ++ c.flag :: rest ++ [c.flag]) =
      .fail .protocolViolation ((itemBytes c its).length + 1)) ∧
  (∀ s : ByteSequence, ∃ its, (∀ i ∈ its, i.legal c = true) ∧
    (s = itemBytes c its ∨ s = itemBytes c its ++ [c.esc] ∨
      ∃ rest, s = itemBytes c its ++ c.flag :: rest))
end

