-- ==== Sys2Proof/Laws/Codec.lean ====
section
/-! SUPPORT. The small laws of the beats: what the encoder puts in each field, and that an event reads back
from its beat (spec/30_encoding.md R71, R72, R73). -/

namespace Sys2Proof

@[simp] theorem decodeBitBeat_sym (v : Bit) : decodeBitBeat (encodeBitEvent (.sym v)) = .sym v := by
  revert v
  decide
@[simp] theorem decodeBitBeat_fin : decodeBitBeat (encodeBitEvent .fin) = .fin := by decide

@[simp] theorem byteEndField_sym (v : Byte) : byteEndField (encodeByteEvent (.sym v)) = 0#1 := by
  revert v
  decide +kernel
@[simp] theorem byteDataField_sym (v : Byte) : byteDataField (encodeByteEvent (.sym v)) = v := by
  revert v
  decide +kernel
@[simp] theorem decodeByteBeat_sym (v : Byte) : decodeByteBeat (encodeByteEvent (.sym v)) = .sym v := by
  simp [decodeByteBeat]
@[simp] theorem decodeByteBeat_fin : decodeByteBeat (encodeByteEvent .fin) = .fin := by decide

@[simp] theorem bitEndField_sym (v : Bit) : bitEndField (encodeBitEvent (.sym v)) = 0#1 := by
  revert v
  decide

@[simp] theorem bitBeats_length (x : BitSequence) : (bitBeats x).length = x.length + 1 := by simp [bitBeats]
@[simp] theorem byteBeats_length (x : ByteSequence) : (byteBeats x).length = x.length + 1 := by simp [byteBeats]

/-- Every event of a bit unit decodes to the SYM or END of the port its beat is on. -/
theorem decodeBeat_port (b : PortBeat) : (decodeBeat b).port = b.port := by
  cases b with
  | bs w => cases h : decodeBitBeat w <;> simp [decodeBeat, h, Instr.port, PortBeat.port]
  | bd w => cases h : decodeBitBeat w <;> simp [decodeBeat, h, Instr.port, PortBeat.port]
  | cs w => cases h : decodeByteBeat w <;> simp [decodeBeat, h, Instr.port, PortBeat.port]
  | cd w => cases h : decodeByteBeat w <;> simp [decodeBeat, h, Instr.port, PortBeat.port]

end Sys2Proof
end

