-- ==== Sys2Proof/Laws/State.lean ====
section
/-! SUPPORT. One lemma per field per update, of a unit and of the state: no later proof unfolds a record
update. -/

namespace Sys2Proof.Machine

/-! ## Updates of the state -/

@[simp] theorem State.setBs_bs (s : State) (l : Lane BsRegs BitBeat Bit) : (s.setBs l).bs = l := rfl
@[simp] theorem State.setBs_bd (s : State) (l : Lane BsRegs BitBeat Bit) : (s.setBs l).bd = s.bd := rfl
@[simp] theorem State.setBs_cs (s : State) (l : Lane BsRegs BitBeat Bit) : (s.setBs l).cs = s.cs := rfl
@[simp] theorem State.setBs_cd (s : State) (l : Lane BsRegs BitBeat Bit) : (s.setBs l).cd = s.cd := rfl
@[simp] theorem State.setBs_csCfg (s : State) (l : Lane BsRegs BitBeat Bit) : (s.setBs l).csCfg = s.csCfg := rfl
@[simp] theorem State.setBs_cdCfg (s : State) (l : Lane BsRegs BitBeat Bit) : (s.setBs l).cdCfg = s.cdCfg := rfl
@[simp] theorem State.setBs_sched (s : State) (l : Lane BsRegs BitBeat Bit) : (s.setBs l).sched = s.sched := rfl

@[simp] theorem State.setBd_bs (s : State) (l : Lane BdRegs BitBeat Bit) : (s.setBd l).bs = s.bs := rfl
@[simp] theorem State.setBd_bd (s : State) (l : Lane BdRegs BitBeat Bit) : (s.setBd l).bd = l := rfl
@[simp] theorem State.setBd_cs (s : State) (l : Lane BdRegs BitBeat Bit) : (s.setBd l).cs = s.cs := rfl
@[simp] theorem State.setBd_cd (s : State) (l : Lane BdRegs BitBeat Bit) : (s.setBd l).cd = s.cd := rfl
@[simp] theorem State.setBd_csCfg (s : State) (l : Lane BdRegs BitBeat Bit) : (s.setBd l).csCfg = s.csCfg := rfl
@[simp] theorem State.setBd_cdCfg (s : State) (l : Lane BdRegs BitBeat Bit) : (s.setBd l).cdCfg = s.cdCfg := rfl
@[simp] theorem State.setBd_sched (s : State) (l : Lane BdRegs BitBeat Bit) : (s.setBd l).sched = s.sched := rfl

@[simp] theorem State.setCs_bs (s : State) (l : Lane CsRegs ByteBeat Byte) : (s.setCs l).bs = s.bs := rfl
@[simp] theorem State.setCs_bd (s : State) (l : Lane CsRegs ByteBeat Byte) : (s.setCs l).bd = s.bd := rfl
@[simp] theorem State.setCs_cs (s : State) (l : Lane CsRegs ByteBeat Byte) : (s.setCs l).cs = l := rfl
@[simp] theorem State.setCs_cd (s : State) (l : Lane CsRegs ByteBeat Byte) : (s.setCs l).cd = s.cd := rfl
@[simp] theorem State.setCs_csCfg (s : State) (l : Lane CsRegs ByteBeat Byte) : (s.setCs l).csCfg = s.csCfg := rfl
@[simp] theorem State.setCs_cdCfg (s : State) (l : Lane CsRegs ByteBeat Byte) : (s.setCs l).cdCfg = s.cdCfg := rfl
@[simp] theorem State.setCs_sched (s : State) (l : Lane CsRegs ByteBeat Byte) : (s.setCs l).sched = s.sched := rfl

@[simp] theorem State.setCd_bs (s : State) (l : Lane CdRegs ByteBeat Byte) : (s.setCd l).bs = s.bs := rfl
@[simp] theorem State.setCd_bd (s : State) (l : Lane CdRegs ByteBeat Byte) : (s.setCd l).bd = s.bd := rfl
@[simp] theorem State.setCd_cs (s : State) (l : Lane CdRegs ByteBeat Byte) : (s.setCd l).cs = s.cs := rfl
@[simp] theorem State.setCd_cd (s : State) (l : Lane CdRegs ByteBeat Byte) : (s.setCd l).cd = l := rfl
@[simp] theorem State.setCd_csCfg (s : State) (l : Lane CdRegs ByteBeat Byte) : (s.setCd l).csCfg = s.csCfg := rfl
@[simp] theorem State.setCd_cdCfg (s : State) (l : Lane CdRegs ByteBeat Byte) : (s.setCd l).cdCfg = s.cdCfg := rfl
@[simp] theorem State.setCd_sched (s : State) (l : Lane CdRegs ByteBeat Byte) : (s.setCd l).sched = s.sched := rfl

@[simp] theorem State.setCsCfg_bs (s : State) (c : CharCfg) : (s.setCsCfg c).bs = s.bs := rfl
@[simp] theorem State.setCsCfg_bd (s : State) (c : CharCfg) : (s.setCsCfg c).bd = s.bd := rfl
@[simp] theorem State.setCsCfg_cs (s : State) (c : CharCfg) : (s.setCsCfg c).cs = s.cs := rfl
@[simp] theorem State.setCsCfg_cd (s : State) (c : CharCfg) : (s.setCsCfg c).cd = s.cd := rfl
@[simp] theorem State.setCsCfg_csCfg (s : State) (c : CharCfg) : (s.setCsCfg c).csCfg = c := rfl
@[simp] theorem State.setCsCfg_cdCfg (s : State) (c : CharCfg) : (s.setCsCfg c).cdCfg = s.cdCfg := rfl
@[simp] theorem State.setCsCfg_sched (s : State) (c : CharCfg) : (s.setCsCfg c).sched = s.sched := rfl

@[simp] theorem State.setCdCfg_bs (s : State) (c : CharCfg) : (s.setCdCfg c).bs = s.bs := rfl
@[simp] theorem State.setCdCfg_bd (s : State) (c : CharCfg) : (s.setCdCfg c).bd = s.bd := rfl
@[simp] theorem State.setCdCfg_cs (s : State) (c : CharCfg) : (s.setCdCfg c).cs = s.cs := rfl
@[simp] theorem State.setCdCfg_cd (s : State) (c : CharCfg) : (s.setCdCfg c).cd = s.cd := rfl
@[simp] theorem State.setCdCfg_csCfg (s : State) (c : CharCfg) : (s.setCdCfg c).csCfg = s.csCfg := rfl
@[simp] theorem State.setCdCfg_cdCfg (s : State) (c : CharCfg) : (s.setCdCfg c).cdCfg = c := rfl
@[simp] theorem State.setCdCfg_sched (s : State) (c : CharCfg) : (s.setCdCfg c).sched = s.sched := rfl

@[simp] theorem State.setSched_bs (s : State) (ts : List Turn) : (s.setSched ts).bs = s.bs := rfl
@[simp] theorem State.setSched_bd (s : State) (ts : List Turn) : (s.setSched ts).bd = s.bd := rfl
@[simp] theorem State.setSched_cs (s : State) (ts : List Turn) : (s.setSched ts).cs = s.cs := rfl
@[simp] theorem State.setSched_cd (s : State) (ts : List Turn) : (s.setSched ts).cd = s.cd := rfl
@[simp] theorem State.setSched_csCfg (s : State) (ts : List Turn) : (s.setSched ts).csCfg = s.csCfg := rfl
@[simp] theorem State.setSched_cdCfg (s : State) (ts : List Turn) : (s.setSched ts).cdCfg = s.cdCfg := rfl
@[simp] theorem State.setSched_sched (s : State) (ts : List Turn) : (s.setSched ts).sched = ts := rfl

/-! ## Updates of a unit -/

section
variable {ρ β α : Type}

@[simp] theorem Lane.react_regs (l : Lane ρ β α) (r : Reaction ρ α) : (l.react r).regs = r.regs := rfl
@[simp] theorem Lane.react_inp (l : Lane ρ β α) (r : Reaction ρ α) : (l.react r).inp = l.inp := rfl
@[simp] theorem Lane.react_out (l : Lane ρ β α) (r : Reaction ρ α) : (l.react r).out = l.out ++ r.outs := rfl
@[simp] theorem Lane.react_rst (l : Lane ρ β α) (r : Reaction ρ α) : (l.react r).rst = l.rst := rfl
@[simp] theorem Lane.react_ready (l : Lane ρ β α) (r : Reaction ρ α) : (l.react r).ready = l.ready := rfl

@[simp] theorem Lane.deliver_regs (l : Lane ρ β α) (w : β) : (l.deliver w).regs = l.regs := rfl
@[simp] theorem Lane.deliver_inp (l : Lane ρ β α) (w : β) : (l.deliver w).inp = l.inp ++ [w] := rfl
@[simp] theorem Lane.deliver_out (l : Lane ρ β α) (w : β) : (l.deliver w).out = l.out := rfl
@[simp] theorem Lane.deliver_rst (l : Lane ρ β α) (w : β) : (l.deliver w).rst = l.rst := rfl
@[simp] theorem Lane.deliver_ready (l : Lane ρ β α) (w : β) : (l.deliver w).ready = l.ready := rfl

@[simp] theorem Lane.place_regs (l : Lane ρ β α) (w : β) : (l.place w).regs = l.regs := rfl
@[simp] theorem Lane.place_inp (l : Lane ρ β α) (w : β) : (l.place w).inp = w :: l.inp := rfl
@[simp] theorem Lane.place_out (l : Lane ρ β α) (w : β) : (l.place w).out = l.out := rfl
@[simp] theorem Lane.place_rst (l : Lane ρ β α) (w : β) : (l.place w).rst = false := rfl
@[simp] theorem Lane.place_ready (l : Lane ρ β α) (w : β) : (l.place w).ready = true := rfl

@[simp] theorem Lane.take_regs (l : Lane ρ β α) : l.take.regs = l.regs := rfl
@[simp] theorem Lane.take_inp (l : Lane ρ β α) : l.take.inp = l.inp := rfl
@[simp] theorem Lane.take_out (l : Lane ρ β α) : l.take.out = l.out.tail := rfl
@[simp] theorem Lane.take_rst (l : Lane ρ β α) : l.take.rst = l.rst := rfl
@[simp] theorem Lane.take_ready (l : Lane ρ β α) : l.take.ready = l.ready := rfl

@[simp] theorem Lane.driveRst_regs (init : ρ) (l : Lane ρ β α) (b : Bool) :
    (l.driveRst init b).regs = if b then init else l.regs := rfl
@[simp] theorem Lane.driveRst_inp (init : ρ) (l : Lane ρ β α) (b : Bool) :
    (l.driveRst init b).inp = l.inp := rfl
@[simp] theorem Lane.driveRst_out (init : ρ) (l : Lane ρ β α) (b : Bool) :
    (l.driveRst init b).out = l.out := rfl
@[simp] theorem Lane.driveRst_rst (init : ρ) (l : Lane ρ β α) (b : Bool) :
    (l.driveRst init b).rst = b := rfl
@[simp] theorem Lane.driveRst_ready (init : ρ) (l : Lane ρ β α) (b : Bool) :
    (l.driveRst init b).ready = l.ready := rfl

@[simp] theorem Lane.driveReady_regs (l : Lane ρ β α) (b : Bool) : (l.driveReady b).regs = l.regs := rfl
@[simp] theorem Lane.driveReady_inp (l : Lane ρ β α) (b : Bool) : (l.driveReady b).inp = l.inp := rfl
@[simp] theorem Lane.driveReady_out (l : Lane ρ β α) (b : Bool) : (l.driveReady b).out = l.out := rfl
@[simp] theorem Lane.driveReady_rst (l : Lane ρ β α) (b : Bool) : (l.driveReady b).rst = l.rst := rfl
@[simp] theorem Lane.driveReady_ready (l : Lane ρ β α) (b : Bool) : (l.driveReady b).ready = b := rfl

end

/-! ## Shapes of a reaction -/

section
variable {ρ α : Type}

@[simp] theorem emit_regs (r : ρ) (vs : List α) : (emit r vs).regs = r := rfl
@[simp] theorem emit_outs (r : ρ) (vs : List α) : (emit r vs).outs = vs.map OutEvent.out := rfl
@[simp] theorem closeOk_regs (r : ρ) (vs : List α) : (closeOk r vs).regs = r := rfl
@[simp] theorem closeOk_outs (r : ρ) (vs : List α) :
    (closeOk r vs).outs = vs.map OutEvent.out ++ [.done] := rfl
@[simp] theorem raise_regs (r : ρ) (k : ErrKind) (off : Nat) : (raise (α := α) r k off).regs = r := rfl
@[simp] theorem raise_outs (r : ρ) (k : ErrKind) (off : Nat) :
    (raise (α := α) r k off).outs = [.abort k off] := rfl

end

end Sys2Proof.Machine
end

