-- ==== Sys2Proof/Laws/Ops.lean ====
section
/-! SUPPORT. What each shared operation can do, said once: sequencing, consuming an input event, a unit's
turn, the caller's actions, the choice of what happens next. Proofs cite these and do not unfold the
operations. -/

namespace Sys2Proof.Machine

/-! ## Sequencing -/

@[simp] theorem andThen_next (s : State) (f : State → Outcome) : andThen (.next s) f = f s := rfl
@[simp] theorem andThen_fault (r : Fault) (f : State → Outcome) : andThen (.fault r) f = .fault r := rfl
@[simp] theorem andThen_refused (r : Refusal) (f : State → Outcome) : andThen (.refused r) f = .refused r := rfl

/-- Sequencing answers a next state only through one. -/
theorem andThen_eq_next {o : Outcome} {f : State → Outcome} {t : State} (h : andThen o f = .next t) :
    ∃ s, o = .next s ∧ f s = .next t := by
  cases o with
  | next s => exact ⟨s, rfl, h⟩
  | fault r => cases h
  | refused r => cases h

@[simp] theorem feed_nil {α : Type} (f : α → State → Outcome) (s : State) : feed f [] s = .next s := rfl
@[simp] theorem feed_cons {α : Type} (f : α → State → Outcome) (v : α) (vs : List α) (s : State) :
    feed f (v :: vs) s = andThen (f v s) (feed f vs) := rfl

/-- Feeding two sequences in a row is feeding the one after the other. -/
theorem feed_append {α : Type} (f : α → State → Outcome) (xs ys : List α) (s : State) :
    feed f (xs ++ ys) s = andThen (feed f xs s) (feed f ys) := by
  induction xs generalizing s with
  | nil => rfl
  | cons v vs ih =>
    simp only [List.cons_append, feed_cons]
    cases f v s with
    | next t => exact ih t
    | fault r => rfl
    | refused r => rfl

/-- A step of a character unit answers a next state only when the configuration is distinct. -/
theorem withDistinctCfg_eq_next {c : CharCfg} {o : Outcome} {t : State}
    (h : withDistinctCfg c o = .next t) : c.wf = true ∧ o = .next t := by
  unfold withDistinctCfg at h
  split at h
  · exact ⟨‹_›, h⟩
  · cases h

@[simp] theorem withDistinctCfg_of_wf {c : CharCfg} (h : c.wf = true) (o : Outcome) :
    withDistinctCfg c o = o := by
  simp [withDistinctCfg, h]

theorem CharCfg_wf_iff (c : CharCfg) : c.wf = true ↔ c.flag ≠ c.esc := by
  simp [CharCfg.wf]

/-! ## Consuming an input event -/

section
variable {ρ β α : Type}

/-- A unit that takes an event is out of reset, has a ready consumer, and loses exactly its oldest beat. -/
theorem Lane.fetch_eq_some {l l' : Lane ρ β α} {w : β} (h : l.fetch = some (w, l')) :
    l.rst = false ∧ l.ready = true ∧ l.inp = w :: l'.inp ∧ l' = { l with inp := l'.inp } := by
  obtain ⟨regs, inp, out, rst, ready⟩ := l
  cases rst <;> cases ready <;> cases inp <;> simp_all [Lane.fetch]
  obtain ⟨rfl, rfl⟩ := h
  exact ⟨rfl, rfl⟩

/-- A unit that is out of reset, has a ready consumer and an event takes its oldest event. -/
theorem Lane.fetch_of_beat {l : Lane ρ β α} {w : β} {ws : List β} (hr : l.rst = false)
    (hy : l.ready = true) (hi : l.inp = w :: ws) : l.fetch = some (w, { l with inp := ws }) := by
  simp [Lane.fetch, hr, hy, hi]

/-- A unit takes nothing exactly when reset is asserted, the consumer is not ready, or no event is there. -/
theorem Lane.fetch_eq_none {l : Lane ρ β α} :
    l.fetch = none ↔ l.rst = true ∨ l.ready = false ∨ l.inp = [] := by
  obtain ⟨regs, inp, out, rst, ready⟩ := l
  cases rst <;> cases ready <;> cases inp <;> simp [Lane.fetch]

@[simp] theorem Lane.fetch_place (l : Lane ρ β α) (w : β) :
    (l.place w).fetch = some (w, { l with rst := false, ready := true }) := rfl

end

/-! ## The choice of what happens next -/

theorem step_idle {s : State} (h : s.sched = []) : step s = .next s := by
  simp [step, activity, h]

/-- A step is its first turn, in the state whose schedule it has left. -/
theorem step_of_turn {s : State} {t : Turn} {ts : List Turn} (h : s.sched = t :: ts) :
    step s = match turnActivity t (s.setSched ts) with
      | .event i u => exec i u
      | .settled o => o := by
  have e : activity s = turnActivity t (s.setSched ts) := by simp [activity, h]
  rw [← e]
  rfl

/-- A unit's turn runs the event it fetches, or waits. -/
theorem unitTurn_cases (p : Port) (s : State) :
    (∃ i t, fetchEvent p s = some (i, t) ∧ unitTurn p s = .event i t) ∨
      (fetchEvent p s = none ∧ unitTurn p s = .settled (.next s)) := by
  cases h : fetchEvent p s with
  | none => exact .inr ⟨rfl, by simp [unitTurn, h]⟩
  | some f => exact .inl ⟨f.1, f.2, rfl, by simp [unitTurn, h]⟩

end Sys2Proof.Machine
end

