-- ==== Sys2Proof/Laws/PerInstr.lean ====
section
/-! SUPPORT. A law of every instruction as syntax: its words lie on its own port, and there is one per symbol,
and one more for an `END` (spec/30_encoding.md R70, R86). -/

namespace Sys2Proof.Laws

/-- The words of `i` are on the port of `i`. -/
def WordsOnOwnPort.Statement (i : Instr) : Prop := ∀ b ∈ encode i, b.port = i.port

theorem WordsOnOwnPort.bsSym (v : Bit) : Statement (.bsSym v) := by simp [Statement, encode, PortBeat.port, Instr.port]
theorem WordsOnOwnPort.bsEnd : Statement .bsEnd := by simp [Statement, encode, PortBeat.port, Instr.port]
theorem WordsOnOwnPort.bdSym (v : Bit) : Statement (.bdSym v) := by simp [Statement, encode, PortBeat.port, Instr.port]
theorem WordsOnOwnPort.bdEnd : Statement .bdEnd := by simp [Statement, encode, PortBeat.port, Instr.port]
theorem WordsOnOwnPort.csSym (v : Byte) : Statement (.csSym v) := by simp [Statement, encode, PortBeat.port, Instr.port]
theorem WordsOnOwnPort.csEnd : Statement .csEnd := by simp [Statement, encode, PortBeat.port, Instr.port]
theorem WordsOnOwnPort.cdSym (v : Byte) : Statement (.cdSym v) := by simp [Statement, encode, PortBeat.port, Instr.port]
theorem WordsOnOwnPort.cdEnd : Statement .cdEnd := by simp [Statement, encode, PortBeat.port, Instr.port]
theorem WordsOnOwnPort.bitStuff (x : BitSequence) : Statement (.bitStuff x) := by
  simp [Statement, encode, PortBeat.port, Instr.port]
theorem WordsOnOwnPort.bitDestuff (y : BitSequence) : Statement (.bitDestuff y) := by
  simp [Statement, encode, PortBeat.port, Instr.port]
theorem WordsOnOwnPort.charStuff (x : ByteSequence) : Statement (.charStuff x) := by
  simp [Statement, encode, PortBeat.port, Instr.port]
theorem WordsOnOwnPort.charDestuff (s : ByteSequence) : Statement (.charDestuff s) := by
  simp [Statement, encode, PortBeat.port, Instr.port]

end Sys2Proof.Laws
end

