-- ==== Sys2Proof/Laws/Units.lean ====
section
/-! SUPPORT. What a unit's events can do, said once per event: the equation of `exec`, the inversion for the
character units, the index counters, the registers after END, and that no stuffer emits an ABORT. And what a
unit's turn does, as a function of its own unit and configuration. -/

namespace Sys2Proof.Machine

/-! ## The meaning of each event as an update of its unit -/

theorem exec_bsSym (v : Bit) (s : State) :
    exec (.bsSym v) s = .next (s.setBs (s.bs.react (bsSymReaction v s.bs.regs))) := rfl
theorem exec_bsEnd (s : State) : exec .bsEnd s = .next (s.setBs (s.bs.react bsEndReaction)) := rfl
theorem exec_bdSym (v : Bit) (s : State) :
    exec (.bdSym v) s = .next (s.setBd (s.bd.react (bdSymReaction v s.bd.regs))) := rfl
theorem exec_bdEnd (s : State) :
    exec .bdEnd s = .next (s.setBd (s.bd.react (bdEndReaction s.bd.regs))) := rfl

theorem exec_csSym {s : State} (h : s.csCfg.wf = true) (v : Byte) :
    exec (.csSym v) s = .next (s.setCs (s.cs.react (csSymReaction s.csCfg v s.cs.regs))) :=
  withDistinctCfg_of_wf h _
theorem exec_csEnd {s : State} (h : s.csCfg.wf = true) :
    exec .csEnd s = .next (s.setCs (s.cs.react (csEndReaction s.csCfg s.cs.regs))) :=
  withDistinctCfg_of_wf h _
theorem exec_cdSym {s : State} (h : s.cdCfg.wf = true) (v : Byte) :
    exec (.cdSym v) s = .next (s.setCd (s.cd.react (cdSymReaction s.cdCfg v s.cd.regs))) :=
  withDistinctCfg_of_wf h _
theorem exec_cdEnd {s : State} (h : s.cdCfg.wf = true) :
    exec .cdEnd s = .next (s.setCd (s.cd.react (cdEndReaction s.cd.regs))) :=
  withDistinctCfg_of_wf h _

theorem exec_csSym_eq_next {v : Byte} {s t : State} (h : exec (.csSym v) s = .next t) :
    s.csCfg.wf = true ∧ t = s.setCs (s.cs.react (csSymReaction s.csCfg v s.cs.regs)) := by
  obtain ⟨hw, ht⟩ := withDistinctCfg_eq_next h
  exact ⟨hw, by simpa using ht.symm⟩
theorem exec_csEnd_eq_next {s t : State} (h : exec .csEnd s = .next t) :
    s.csCfg.wf = true ∧ t = s.setCs (s.cs.react (csEndReaction s.csCfg s.cs.regs)) := by
  obtain ⟨hw, ht⟩ := withDistinctCfg_eq_next h
  exact ⟨hw, by simpa using ht.symm⟩
theorem exec_cdSym_eq_next {v : Byte} {s t : State} (h : exec (.cdSym v) s = .next t) :
    s.cdCfg.wf = true ∧ t = s.setCd (s.cd.react (cdSymReaction s.cdCfg v s.cd.regs)) := by
  obtain ⟨hw, ht⟩ := withDistinctCfg_eq_next h
  exact ⟨hw, by simpa using ht.symm⟩
theorem exec_cdEnd_eq_next {s t : State} (h : exec .cdEnd s = .next t) :
    s.cdCfg.wf = true ∧ t = s.setCd (s.cd.react (cdEndReaction s.cd.regs)) := by
  obtain ⟨hw, ht⟩ := withDistinctCfg_eq_next h
  exact ⟨hw, by simpa using ht.symm⟩

/-! ## Reactions -/

theorem eq_zero_or_one (b : Bit) : b = 0#1 ∨ b = 1#1 := by
  revert b
  decide

/-- Below the limit the 3-bit register holds the run length. -/
theorem storeRun_toNat {n : Nat} (h : n < 8) : (storeRun n).toNat = n := by
  simp only [storeRun, BitVec.toNat_ofNat]
  omega

@[simp] theorem bdSymReaction_idx (v : Bit) (r : BdRegs) : (bdSymReaction v r).regs.idx = r.idx + 1 := by
  simp only [bdSymReaction]
  split
  · by_cases h5 : r.cnt.toNat = Config.RUN <;> by_cases h0 : v = 0#1 <;> by_cases h1 : v = 1#1 <;> simp [*]
  · rfl

@[simp] theorem cdSymReaction_idx (c : CharCfg) (v : Byte) (r : CdRegs) :
    (cdSymReaction c v r).regs.idx = r.idx + 1 := by
  simp only [cdSymReaction]
  split
  · cases r.st <;> simp <;> split <;> (try split) <;> rfl
  · rfl

@[simp] theorem cdSymReaction_lastflag (c : CharCfg) (v : Byte) (r : CdRegs) :
    (cdSymReaction c v r).regs.lastflag = lastFlagOf c v := by
  simp only [cdSymReaction]
  split
  · cases r.st <;> simp <;> split <;> (try split) <;> rfl
  · rfl

@[simp] theorem bsEndReaction_regs : bsEndReaction.regs = .reset := rfl
@[simp] theorem csEndReaction_regs (c : CharCfg) (r : CsRegs) : (csEndReaction c r).regs = .reset := rfl

@[simp] theorem bdEndReaction_regs (r : BdRegs) : (bdEndReaction r).regs = .reset := by
  simp only [bdEndReaction]
  split
  · rfl
  · split <;> rfl

@[simp] theorem cdEndReaction_regs (r : CdRegs) : (cdEndReaction r).regs = .reset := by
  obtain ⟨st, idx, err, eoff, lastflag⟩ := r
  cases err <;> cases st <;> cases lastflag <;> rfl

theorem bsSymReaction_notAbort (v : Bit) (r : BsRegs) : ∀ e ∈ (bsSymReaction v r).outs, notAbort e = true := by
  simp only [bsSymReaction]
  split
  · split <;> simp [notAbort]
  · simp [notAbort]

theorem csSymReaction_notAbort (c : CharCfg) (v : Byte) (r : CsRegs) :
    ∀ e ∈ (csSymReaction c v r).outs, notAbort e = true := by
  intro e he
  simp only [csSymReaction, emit_outs, List.mem_map] at he
  obtain ⟨_, _, rfl⟩ := he
  rfl

theorem csEndReaction_notAbort (c : CharCfg) (r : CsRegs) :
    ∀ e ∈ (csEndReaction c r).outs, notAbort e = true := by
  intro e he
  simp only [csEndReaction, closeOk_outs, List.mem_append, List.mem_map, List.mem_singleton] at he
  obtain ⟨_, _, rfl⟩ | rfl := he <;> rfl

/-! ## Lists of events -/

theorem runEvents_append (is js : List Instr) (s : State) :
    runEvents (is ++ js) s = andThen (runEvents is s) (runEvents js) := by
  induction is generalizing s with
  | nil => rfl
  | cons i is ih =>
    simp only [List.cons_append, runEvents]
    cases exec i s with
    | next t => exact ih t
    | fault r => rfl
    | refused r => rfl

/-- Feeding a sequence to a SYM meaning is running the SYM events. -/
theorem runEvents_map {α : Type} {c : α → Instr} {f : α → State → Outcome}
    (h : ∀ v s, exec (c v) s = f v s) (xs : List α) (s : State) : runEvents (xs.map c) s = feed f xs s := by
  induction xs generalizing s with
  | nil => rfl
  | cons v vs ih =>
    simp only [List.map_cons, runEvents, feed_cons, h]
    cases f v s with
    | next t => exact ih t
    | fault r => rfl
    | refused r => rfl

/-! ## A unit's turn as a function of its own unit -/

/-- The outcome of a unit's turn. -/
def turnOutcome (p : Port) (s : State) : Outcome :=
  match unitTurn p s with
  | .event i t => exec i t
  | .settled o => o

theorem step_of_unit {s : State} {p : Port} {ts : List Turn} (h : s.sched = .unit p :: ts) :
    step s = turnOutcome p (s.setSched ts) := by
  rw [step_of_turn h]
  rfl

/-- What BS's turn makes of BS. -/
def bsTurn (l : Lane BsRegs BitBeat Bit) : Lane BsRegs BitBeat Bit :=
  match l.fetch with
  | none => l
  | some (w, l') =>
    match decodeBitBeat w with
    | .sym v => l'.react (bsSymReaction v l'.regs)
    | .fin => l'.react bsEndReaction

/-- What BD's turn makes of BD. -/
def bdTurn (l : Lane BdRegs BitBeat Bit) : Lane BdRegs BitBeat Bit :=
  match l.fetch with
  | none => l
  | some (w, l') =>
    match decodeBitBeat w with
    | .sym v => l'.react (bdSymReaction v l'.regs)
    | .fin => l'.react (bdEndReaction l'.regs)

/-- What CS's turn makes of CS; none: refused. -/
def csTurn (c : CharCfg) (l : Lane CsRegs ByteBeat Byte) : Option (Lane CsRegs ByteBeat Byte) :=
  match l.fetch with
  | none => some l
  | some (w, l') =>
    if c.wf then
      some (match decodeByteBeat w with
        | .sym v => l'.react (csSymReaction c v l'.regs)
        | .fin => l'.react (csEndReaction c l'.regs))
    else none

/-- What CD's turn makes of CD; none: refused. -/
def cdTurn (c : CharCfg) (l : Lane CdRegs ByteBeat Byte) : Option (Lane CdRegs ByteBeat Byte) :=
  match l.fetch with
  | none => some l
  | some (w, l') =>
    if c.wf then
      some (match decodeByteBeat w with
        | .sym v => l'.react (cdSymReaction c v l'.regs)
        | .fin => l'.react (cdEndReaction l'.regs))
    else none

theorem turnOutcome_bs (s : State) : turnOutcome .bs s = .next (s.setBs (bsTurn s.bs)) := by
  simp only [turnOutcome, unitTurn, fetchEvent, bsTurn]
  cases s.bs.fetch with
  | none => rfl
  | some f => cases h : decodeBitBeat f.1 <;> simp [decodeBeat, h, exec_bsSym, exec_bsEnd, State.setBs]

theorem turnOutcome_bd (s : State) : turnOutcome .bd s = .next (s.setBd (bdTurn s.bd)) := by
  simp only [turnOutcome, unitTurn, fetchEvent, bdTurn]
  cases s.bd.fetch with
  | none => rfl
  | some f => cases h : decodeBitBeat f.1 <;> simp [decodeBeat, h, exec_bdSym, exec_bdEnd, State.setBd]

theorem turnOutcome_cs (s : State) : turnOutcome .cs s =
    match csTurn s.csCfg s.cs with
    | some l => .next (s.setCs l)
    | none => .refused .flagEqualsEsc := by
  simp only [turnOutcome, unitTurn, fetchEvent, csTurn]
  cases s.cs.fetch with
  | none => rfl
  | some f =>
    cases hw : s.csCfg.wf <;> cases h : decodeByteBeat f.1 <;>
      simp [decodeBeat, h, exec, execCsSym, execCsEnd, State.setCs, withDistinctCfg, hw]

theorem turnOutcome_cd (s : State) : turnOutcome .cd s =
    match cdTurn s.cdCfg s.cd with
    | some l => .next (s.setCd l)
    | none => .refused .flagEqualsEsc := by
  simp only [turnOutcome, unitTurn, fetchEvent, cdTurn]
  cases s.cd.fetch with
  | none => rfl
  | some f =>
    cases hw : s.cdCfg.wf <;> cases h : decodeByteBeat f.1 <;>
      simp [decodeBeat, h, exec, execCdSym, execCdEnd, State.setCd, withDistinctCfg, hw]

end Sys2Proof.Machine
end

