-- ==== Sys2Proof/Tests/Slice0.lean ====
section
/-! SUPPORT. The model's own tests. The expected values come from spec/95_test_vectors.md (the vector or
program is named) or from the rule named. The theorems named test_witness show a state and operands that
meet the hypotheses of an obligation, for each of its clauses. -/

namespace Sys2Proof.Tests

open Sys2Proof.Machine

/-! ## States and texts of the tests -/

/-- Reset with BS's registers, input and the schedule given. -/
def stateBs (r : BsRegs) (inp : List BitBeat) (ts : List Turn) : State :=
  { State.reset with bs := { State.reset.bs with regs := r, inp := inp }, sched := ts }

/-- Reset with BD's registers, input and the schedule given. -/
def stateBd (r : BdRegs) (inp : List BitBeat) (ts : List Turn) : State :=
  { State.reset with bd := { State.reset.bd with regs := r, inp := inp }, sched := ts }

/-- Reset with CS's configuration, registers, input and the schedule given. -/
def stateCs (c : CharCfg) (r : CsRegs) (inp : List ByteBeat) (ts : List Turn) : State :=
  { State.reset with cs := { State.reset.cs with regs := r, inp := inp }, csCfg := c, sched := ts }

/-- Reset with CD's configuration, registers, input and the schedule given. -/
def stateCd (c : CharCfg) (r : CdRegs) (inp : List ByteBeat) (ts : List Turn) : State :=
  { State.reset with cd := { State.reset.cd with regs := r, inp := inp }, cdCfg := c, sched := ts }

/-- The bytes of a text, by R11. -/
def bytes (t : String) : ByteSequence := (t.toList.mapM charByte).getD []

/-- The bits of a text, by R10. -/
def bits (t : String) : BitSequence := (t.toList.mapM charBit).getD []

/-- The outcome is the refusal given. -/
def isRefused (o : Outcome) (r : Refusal) : Bool :=
  match o with
  | .refused r' => decide (r' = r)
  | .next _ => false
  | .fault _ => false

abbrev ref : CharCfg := Config.reference
abbrev other : CharCfg := { flag := 0x00, esc := 0xFF }
abbrev same : CharCfg := { flag := 0x7E, esc := 0x7E }

/-! ## WellFormed: each check refuses an ill-formed term -/

theorem test_wf_cfg_equal_refused : CharCfg.wf same = false ∧ CharCfg.wf ref = true := by decide
theorem test_wf_wide_bit_word_refused : fitsPort .bs 4 = false ∧ fitsPort .bd 3 = true := by decide
theorem test_wf_wide_byte_word_refused : fitsPort .cs 0x200 = false ∧ fitsPort .cd 0x1FF = true := by decide
theorem test_wf_offset_too_wide_refused :
    (OutEvent.abort .malformedFrame 256 : OutEvent Bit).fits 8 = false ∧
    (OutEvent.abort .malformedFrame 255 : OutEvent Bit).fits 8 = true := by decide

/-! ## Decoding: words written out from R71, R72 (V50 to V57) -/

theorem test_decode_bs_sym : decodeWord .bs 0b01 = .ok (.bsSym 1) ∧ decodeWord .bs 0b00 = .ok (.bsSym 0) := by decide
theorem test_decode_bs_end : decodeWord .bs 0b10 = .ok .bsEnd ∧ decodeWord .bs 0b11 = .ok .bsEnd := by decide
theorem test_decode_bd_sym : decodeWord .bd 0b01 = .ok (.bdSym 1) ∧ decodeWord .bd 0b00 = .ok (.bdSym 0) := by decide
theorem test_decode_bd_end : decodeWord .bd 0b10 = .ok .bdEnd ∧ decodeWord .bd 0b11 = .ok .bdEnd := by decide
theorem test_decode_cs_sym : decodeWord .cs 0b001111110 = .ok (.csSym 0x7E) := by decide
theorem test_decode_cs_end : decodeWord .cs 0b100000000 = .ok .csEnd := by decide
theorem test_decode_cd_sym : decodeWord .cd 0b010000001 = .ok (.cdSym 0x81) := by decide
theorem test_decode_cd_end : decodeWord .cd 0b101111110 = .ok .cdEnd := by decide
theorem test_decode_too_wide : decodeWord .bs 0b101 = .error .wordTooWide := by decide
/-- R86: the beats `01 01 10` on BS.in are `bitStuff("11")`; one beat is left. -/
theorem test_decode_bitStuff :
    decodeTransaction [.bs 0b01, .bs 0b01, .bs 0b10, .bs 0b00] = .ok (.bitStuff [1, 1], [.bs 0b00]) := by decide
theorem test_decode_bitDestuff : decodeTransaction [.bd 0b00, .bd 0b11] = .ok (.bitDestuff [0], []) := by decide
theorem test_decode_charStuff : decodeTransaction [.cs 0x041, .cs 0x100] = .ok (.charStuff [0x41], []) := by decide
theorem test_decode_charDestuff : decodeTransaction [.cd 0x100] = .ok (.charDestuff [], []) := by decide
theorem test_decode_rejected_by_name :
    decodeTransaction [] = .error .noBeat ∧ decodeTransaction [.bs 0b01] = .error .unclosed ∧
    decodeTransaction [.cs 0x041, .cd 0x100] = .error .otherPort := by decide
/-- Log 4: a table word is read on BS.in or CS.in; a word that is no beat is none. -/
theorem test_table_word :
    decodeTableWord 8 0b01 = some (.bsSym 1) ∧ decodeTableWord 16 0x100 = some .csEnd ∧
    decodeTableWord 8 0b100 = none ∧ decodeTableWord 0 0 = none := by decide
/-- R76: no beat of a port matches two rows. -/
theorem test_rows_do_not_overlap :
    eventTable.Pairwise (fun r q => r.port ≠ q.port ∨ (r.mask = q.mask ∧ r.pattern ≠ q.pattern)) := by decide
/-- V58 to V61. -/
theorem test_output_beats :
    packOut 8 (encodeOut (.done : OutEvent Bit)) = some (0b100000000000#12) ∧
    packOut 8 (encodeOut (.abort .protocolViolation 3 : OutEvent Byte)) = some (0b1100000001100000000#19) ∧
    decodeOut (⟨1, 3, 0, 0⟩ : OutBeat 1) = none := by decide
/-- R85. -/
theorem test_text :
    parseCall "bitStuff(\"110\")".toList = some (.bitStuff [1, 1, 0]) ∧
    parseCall "charDestuff(\"~A~\")".toList = some (.charDestuff [0x7E, 0x41, 0x7E]) ∧
    parseCall "bitStuff(\"12\")".toList = none := by decide
/-- R85: `→ ProtocolViolation @3`. -/
theorem test_result_text :
    resultText byteChar (.fail .protocolViolation 3) = "→ ProtocolViolation @3" ∧
    resultText bitChar (.ok [1, 0]) = "== \"10\"" := by decide
/-- R78, R80. -/
theorem test_codes :
    RxState.code .awaitFlag = 0 ∧ RxState.code .inFrame = 1 ∧ RxState.code .escapeNext = 2 ∧ RxState.code .done = 3 ∧
    Status.code .none = 0 ∧ Status.code .mf = 1 ∧ Status.code .pv = 2 ∧
    ErrKind.code .malformedFrame = Status.code .mf ∧ ErrKind.code .protocolViolation = Status.code .pv := by decide

/-! ## One step of each event -/

/-- P1 step 5. -/
theorem test_bsSym_fifth_one : nextState (exec (.bsSym 1) (stateBs ⟨4⟩ [] [])) =
    some { State.reset with bs := { State.reset.bs with out := [.out 1, .out 0] } } := by decide
/-- P1 step 4. -/
theorem test_bsSym_fourth_one : nextState (exec (.bsSym 1) (stateBs ⟨3⟩ [] [])) =
    some { State.reset with bs := { State.reset.bs with regs := ⟨4⟩, out := [.out 1] } } := by decide
/-- R102, the example. -/
theorem test_bsEnd : nextState (exec .bsEnd (stateBs ⟨4⟩ [] [])) =
    some { State.reset with bs := { State.reset.bs with out := [.done] } } := by decide
/-- P2 step 6. -/
theorem test_bdSym_discards : nextState (exec (.bdSym 0) (stateBd ⟨5, 5, .none, 0⟩ [] [])) =
    some { State.reset with bd := { State.reset.bd with regs := ⟨0, 6, .none, 0⟩ } } := by decide
/-- P2c step 7. -/
theorem test_bdSym_sixth_one : nextState (exec (.bdSym 1) (stateBd ⟨5, 6, .none, 0⟩ [] [])) =
    some { State.reset with bd := { State.reset.bd with regs := ⟨5, 7, .pv, 6⟩ } } := by decide
/-- P2b step 6. -/
theorem test_bdEnd_malformed : nextState (exec .bdEnd (stateBd ⟨5, 5, .none, 0⟩ [] [])) =
    some { State.reset with bd := { State.reset.bd with out := [.abort .malformedFrame 5] } } := by decide
/-- P2c step 9. -/
theorem test_bdEnd_violation : nextState (exec .bdEnd (stateBd ⟨5, 8, .pv, 6⟩ [] [])) =
    some { State.reset with bd := { State.reset.bd with out := [.abort .protocolViolation 6] } } := by decide
/-- P3c step 1. -/
theorem test_csSym_three_outputs : nextState (exec (.csSym 0x00) (stateCs other ⟨false⟩ [] [])) =
    some { stateCs other ⟨true⟩ [] [] with
      cs := { State.reset.cs with regs := ⟨true⟩, out := [.out 0x00, .out 0xFF, .out 0x00] } } := by decide
/-- R141, the example. -/
theorem test_csSym_escapes : nextState (exec (.csSym 0x7E) (stateCs ref ⟨true⟩ [] [])) =
    some { State.reset with cs := { State.reset.cs with regs := ⟨true⟩, out := [.out 0x7D, .out 0x7E] } } := by
  decide
/-- P3b step 1. -/
theorem test_csEnd_empty : nextState (exec .csEnd (stateCs ref ⟨false⟩ [] [])) =
    some { State.reset with cs := { State.reset.cs with out := [.out 0x7E, .out 0x7E, .done] } } := by decide
/-- P5 step 4. -/
theorem test_cdSym_to_done : nextState (exec (.cdSym 0x7E) (stateCd ref ⟨.inFrame, 3, .none, 0, false⟩ [] [])) =
    some (stateCd ref ⟨.done, 4, .none, 3, true⟩ [] []) := by decide
/-- P4 step 5: the escaped FLAG is copied. -/
theorem test_cdSym_escaped : nextState (exec (.cdSym 0x7E) (stateCd ref ⟨.escapeNext, 4, .none, 0, false⟩ [] [])) =
    some { State.reset with
      cd := { State.reset.cd with regs := ⟨.inFrame, 5, .none, 0, true⟩, out := [.out 0x7E] } } := by decide
/-- P5 step 7. -/
theorem test_cdEnd_violation : nextState (exec .cdEnd (stateCd ref ⟨.done, 6, .pv, 3, true⟩ [] [])) =
    some { State.reset with cd := { State.reset.cd with out := [.abort .protocolViolation 3] } } := by decide
/-- P5b step 6. -/
theorem test_cdEnd_priority : nextState (exec .cdEnd (stateCd ref ⟨.done, 5, .pv, 3, false⟩ [] [])) =
    some { State.reset with cd := { State.reset.cd with out := [.abort .malformedFrame 5] } } := by decide
/-- U1. -/
theorem test_equal_cfg_refused : isRefused (exec (.csSym 0x41) (stateCs same ⟨false⟩ [] [])) .flagEqualsEsc = true ∧
    isRefused (exec .cdEnd (stateCd same .reset [] [])) .flagEqualsEsc = true := by decide
/-- U2. -/
theorem test_cfg_change_in_transaction_refused :
    isRefused (step (stateCs ref ⟨true⟩ [] [.driveCsCfg other])) .cfgChangedInTransaction = true ∧
    isRefused (step (stateCd ref ⟨.inFrame, 1, .none, 0, true⟩ [] [.driveCdCfg other])) .cfgChangedInTransaction = true
    := by decide

/-! ## Transactions and the contracts -/

/-- E6 and E7 (V1, V2). -/
theorem test_bitStuff_contract : bitStuff (bits "11111") = bits "111110" ∧ bitStuff (bits "111110") = bits "1111100" := by
  decide
/-- V1 on the machine. -/
theorem test_bitStuff_exec : nextState (exec (.bitStuff (bits "11111")) State.reset) =
    some { State.reset with bs := { State.reset.bs with out := (bits "111110").map .out ++ [.done] } } := by decide
/-- V11, V12, V19c. -/
theorem test_bitDestuff_contract : bitDestuff (bits "1111100") = .ok (bits "111110") ∧
    bitDestuff (bits "11111") = .fail .malformedFrame 5 ∧
    bitDestuff (bits "11111111") = .fail .protocolViolation 5 := by decide
/-- P2c on the machine. -/
theorem test_bitDestuff_exec : nextState (exec (.bitDestuff (bits "01111110")) State.reset) =
    some { State.reset with
      bd := { State.reset.bd with out := (bits "011111").map .out ++ [.abort .protocolViolation 6] } } := by decide
/-- E8 (V20), V29b. -/
theorem test_charStuff_contract : charStuff ref (bytes "AB~C") = [0x7E, 0x41, 0x42, 0x7D, 0x7E, 0x43, 0x7E] ∧
    charStuff other [0x00, 0x7E, 0xFF] = [0x00, 0xFF, 0x00, 0x7E, 0xFF, 0xFF, 0x00] := by decide
/-- V24 on the machine. -/
theorem test_charStuff_exec : nextState (exec (.charStuff [0x7D]) State.reset) =
    some { State.reset with
      cs := { State.reset.cs with out := [.out 0x7E, .out 0x7D, .out 0x7D, .out 0x7E, .done] } } := by decide
/-- E9, E10 (V30, V31), V37, V41, V46. -/
theorem test_charDestuff_contract :
    charDestuff ref [0x7E, 0x41, 0x42, 0x7D, 0x7E, 0x43, 0x7E] = .ok (bytes "AB~C") ∧
    charDestuff ref (bytes "~AB~C~") = .fail .protocolViolation 3 ∧
    charDestuff ref (bytes "~AB~C") = .fail .malformedFrame 5 ∧
    charDestuff ref [0x7E, 0x41, 0x42, 0x7D, 0x7E] = .fail .malformedFrame 5 ∧
    charDestuff ref [0x7E, 0x41, 0x7E, 0x42, 0x7D, 0x7E] = .fail .protocolViolation 2 := by decide
/-- P5d on the machine. -/
theorem test_charDestuff_exec : nextState (exec (.charDestuff (bytes "A~")) State.reset) =
    some { State.reset with cd := { State.reset.cd with out := [.abort .malformedFrame 0] } } := by decide
/-- R14, R55. -/
theorem test_readResult :
    readResult [OutEvent.out 1#1, .abort .malformedFrame 5, .done] = some (.fail .malformedFrame 5, [.done]) ∧
    readResult [OutEvent.out 1#1] = none := by decide

/-! ## Steps -/

/-- R54, R240. -/
theorem test_step_waits : nextState (step (stateBs ⟨3⟩ [] [.unit .bs])) = some (stateBs ⟨3⟩ [] []) := by decide
/-- R60, R199: `OUT 1` becomes the beat `01`. -/
theorem test_step_connects :
    nextState (step { State.reset with bs := { State.reset.bs with out := [.out 1] }, sched := [.connect .bits] }) =
      some (stateBd .reset [0b01] []) := by decide
/-- The host's word runs as the first instruction after reset. -/
theorem test_fetchWord_runs : nextState (step (State.reset.withFetchWord 8 0b01)) =
    some { State.reset with bs := { State.reset.bs with regs := ⟨1⟩, out := [.out 1] } } := by decide

/-! ## Witnesses: the hypotheses of each obligation can be met -/

theorem test_witness_StepRunsTheFetchedEvent :
    (∃ s : State, s.sched = .unit .bs :: [] ∧ s.bs.rst = false ∧ s.bs.ready = true ∧ s.bs.inp = 0b01 :: []) ∧
    (∃ s : State, s.sched = .unit .bd :: [] ∧ s.bd.rst = false ∧ s.bd.ready = true ∧ s.bd.inp = 0b01 :: []) ∧
    (∃ s : State, s.sched = .unit .cs :: [] ∧ s.cs.rst = false ∧ s.cs.ready = true ∧ s.cs.inp = 0x041 :: []) ∧
    (∃ s : State, s.sched = .unit .cd :: [] ∧ s.cd.rst = false ∧ s.cd.ready = true ∧ s.cd.inp = 0x07E :: []) :=
  ⟨⟨stateBs .reset [0b01] [.unit .bs], by decide⟩, ⟨stateBd .reset [0b01] [.unit .bd], by decide⟩,
   ⟨stateCs ref .reset [0x041] [.unit .cs], by decide⟩, ⟨stateCd ref .reset [0x07E] [.unit .cd], by decide⟩⟩

theorem test_witness_PlacedBeatIsTheNextEvent : decodeTableWord 2 0b11 = some .bsEnd ∧
    decodeTableWord 8 0b01 = some (.bsSym 1) ∧ decodeTableWord 9 0x1FF = some .csEnd ∧
    decodeTableWord 16 0x0FF = some (.csSym 0xFF) := by decide

/-- Each of the three reasons to wait, and the empty schedule. -/
theorem test_witness_UnitWaitsWithoutChange :
    ((stateBs .reset [] [.unit .bs]).sched = .unit .bs :: [] ∧ (stateBs .reset [] [.unit .bs]).bs.inp = []) ∧
    (∃ s : State, s.sched = .unit .bd :: [] ∧ s.bd.rst = true) ∧
    (∃ s : State, s.sched = .unit .cs :: [] ∧ s.cs.ready = false) ∧
    (∃ s : State, s.sched = .unit .cd :: [] ∧ s.cd.inp = []) ∧ State.reset.sched = [] :=
  ⟨by decide, ⟨{ State.reset with bd := { State.reset.bd with rst := true }, sched := [.unit .bd] }, by decide⟩,
   ⟨{ State.reset with cs := { State.reset.cs with ready := false }, sched := [.unit .cs] }, by decide⟩,
   ⟨stateCd ref .reset [] [.unit .cd], by decide⟩, by decide⟩

theorem test_witness_CallerMovesStreamsInOrder :
    (stateBs .reset [] [.send (.bs 0b01)]).sched = .send (.bs 0b01) :: [] ∧
    (stateBs .reset [] [.send (.bd 0b01)]).sched = .send (.bd 0b01) :: [] ∧
    (stateBs .reset [] [.send (.cs 0x041)]).sched = .send (.cs 0x041) :: [] ∧
    (stateBs .reset [] [.send (.cd 0x041)]).sched = .send (.cd 0x041) :: [] ∧
    (∀ p, (stateBs .reset [] [.take p]).sched = .take p :: []) ∧
    (∀ p b, (stateBs .reset [] [.driveReady p b]).sched = .driveReady p b :: []) ∧
    (∀ e, ∃ s : State, s.sched = .connect .bits :: [] ∧ s.bs.out = e :: []) ∧
    (∀ e, ∃ s : State, s.sched = .connect .bytes :: [] ∧ s.cs.out = e :: []) :=
  ⟨rfl, rfl, rfl, rfl, fun _ => rfl, fun _ _ => rfl,
   fun e => ⟨{ State.reset with bs := { State.reset.bs with out := [e] }, sched := [.connect .bits] }, rfl, rfl⟩,
   fun e => ⟨{ State.reset with cs := { State.reset.cs with out := [e] }, sched := [.connect .bytes] }, rfl, rfl⟩⟩

theorem test_witness_ConfigurationChangesOnlyBetweenTransactions :
    (∃ s : State, s.sched = .driveCsCfg other :: [] ∧ s.cs.regs.opened = false) ∧
    (∃ s : State, s.sched = .driveCsCfg other :: [] ∧ s.cs.regs.opened = true ∧ other ≠ s.csCfg) ∧
    (∃ s : State, s.sched = .driveCdCfg other :: [] ∧ s.cd.regs.idx = 0) ∧
    (∃ s : State, s.sched = .driveCdCfg other :: [] ∧ s.cd.regs.idx ≠ 0 ∧ other ≠ s.cdCfg) ∧
    (∃ s : State, s.cs.regs.opened = false ∧ s.sched = .driveCsCfg other :: .unit .cs :: [] ∧
      other.flag ≠ other.esc ∧ s.cs.rst = false ∧ s.cs.ready = true ∧ s.cs.inp = [0x100]) :=
  ⟨⟨stateCs ref ⟨false⟩ [] [.driveCsCfg other], by decide⟩, ⟨stateCs ref ⟨true⟩ [] [.driveCsCfg other], by decide⟩,
   ⟨stateCd ref .reset [] [.driveCdCfg other], by decide⟩,
   ⟨stateCd ref ⟨.inFrame, 1, .none, 0, true⟩ [] [.driveCdCfg other], by decide⟩,
   ⟨stateCs ref ⟨false⟩ [0x100] [.driveCsCfg other, .unit .cs], by decide⟩⟩

/-- A state with all four units held in reset and one turn to come. -/
def held (t : Turn) : State :=
  { State.reset with
    bs := { State.reset.bs with rst := true }
    bd := { State.reset.bd with rst := true }
    cs := { State.reset.cs with rst := true }
    cd := { State.reset.cd with rst := true }
    sched := [t] }

theorem test_BdRegs_reset_legal : BdRegs.Legal .reset := ⟨by decide, by decide, by decide, by decide⟩
theorem test_CdRegs_reset_legal : CdRegs.Legal .reset := ⟨by decide, by decide, by decide, by decide⟩

theorem test_held_inv (t : Turn) : (held t).Inv where
  bs := by simp [held, State.reset, Lane.reset, BsRegs.reset, BsRegs.Legal]
  bd := test_BdRegs_reset_legal
  cd := test_CdRegs_reset_legal
  bsOut := by simp [held, State.reset, Lane.reset]
  csOut := by simp [held, State.reset, Lane.reset]
  bsHeld := fun _ => rfl
  bdHeld := fun _ => rfl
  csHeld := fun _ => rfl
  cdHeld := fun _ => rfl

theorem test_witness_AssertedResetAbandonsTheTransaction :
    (∃ s : State, s.sched = .driveRst .bs true :: [] ∧ s.bs.regs.cnt = 3) ∧
    (∃ s : State, s.sched = .driveRst .bd true :: [] ∧ s.bd.regs.idx = 7) ∧
    (∃ s : State, s.sched = .driveRst .cs true :: [] ∧ s.cs.regs.opened = true) ∧
    (∃ s : State, s.sched = .driveRst .cd true :: [] ∧ s.cd.regs.st = .done) :=
  ⟨⟨stateBs ⟨3⟩ [] [.driveRst .bs true], by decide⟩, ⟨stateBd ⟨5, 7, .pv, 6⟩ [] [.driveRst .bd true], by decide⟩,
   ⟨stateCs ref ⟨true⟩ [] [.driveRst .cs true], by decide⟩,
   ⟨stateCd ref ⟨.done, 2, .none, 1, true⟩ [] [.driveRst .cd true], by decide⟩⟩

/-- All four units held in reset, with any turn to come. -/
theorem test_witness_ReleasedUnitIsInItsResetState (t : Turn) :
    (held t).Inv ∧ (held t).sched = t :: [] ∧ (held t).bs.rst = true ∧ (held t).bd.rst = true ∧
    (held t).cs.rst = true ∧ (held t).cd.rst = true :=
  ⟨test_held_inv _, rfl, rfl, rfl, rfl, rfl⟩

/-- The run counter at both sides of the limit. -/
theorem test_witness_BsSymCopiesAndStuffs :
    (stateBs ⟨4⟩ [] []).bs.regs.cnt.toNat + 1 = 5 ∧ (stateBs ⟨3⟩ [] []).bs.regs.cnt.toNat + 1 < 5 := by decide

theorem test_witness_BdSymCopiesDiscardsOrLatches :
    (∃ s : State, s.bd.regs.err = .none ∧ s.bd.regs.cnt = 5) ∧
    (∃ s : State, s.bd.regs.err = .none ∧ s.bd.regs.cnt.toNat < 5) ∧ (∃ s : State, s.bd.regs.err ≠ .none) :=
  ⟨⟨stateBd ⟨5, 5, .none, 0⟩ [] [], by decide⟩, ⟨stateBd ⟨4, 4, .none, 0⟩ [] [], by decide⟩,
   ⟨stateBd ⟨5, 7, .pv, 6⟩ [] [], by decide⟩⟩

theorem test_witness_BdEndReportsTheResult :
    (∃ s : State, s.bd.regs.err = .pv) ∧ (∃ s : State, s.bd.regs.err ≠ .pv ∧ s.bd.regs.cnt = 5) ∧
    (∃ s : State, s.bd.regs.err ≠ .pv ∧ s.bd.regs.cnt ≠ 5) :=
  ⟨⟨stateBd ⟨5, 7, .pv, 6⟩ [] [], by decide⟩, ⟨stateBd ⟨5, 5, .none, 0⟩ [] [], by decide⟩,
   ⟨stateBd ⟨4, 4, .none, 0⟩ [] [], by decide⟩⟩

/-- The premise `cfg.flag != cfg.esc` of the CS and CD statements, transactions and bounds included. -/
theorem test_witness_distinct_cfg : State.reset.csCfg.flag ≠ State.reset.csCfg.esc ∧
    State.reset.cdCfg.flag ≠ State.reset.cdCfg.esc ∧ other.flag ≠ other.esc ∧
    State.reset.csCfg = State.reset.cdCfg := by decide

theorem test_witness_CdSymMovesTheReceiver :
    (∃ s : State, s.cdCfg.flag ≠ s.cdCfg.esc ∧ s.cd.regs.err ≠ .none) ∧
    (∃ s : State, s.cdCfg.flag ≠ s.cdCfg.esc ∧ s.cd.regs.err = .none ∧ s.cd.regs.st = .awaitFlag ∧
      (0x7E : Byte) = s.cdCfg.flag ∧ (0x41 : Byte) ≠ s.cdCfg.flag) ∧
    (∃ s : State, s.cdCfg.flag ≠ s.cdCfg.esc ∧ s.cd.regs.err = .none ∧ s.cd.regs.st = .inFrame ∧
      (0x7D : Byte) = s.cdCfg.esc ∧ (0x7E : Byte) = s.cdCfg.flag ∧ (0x41 : Byte) ≠ s.cdCfg.esc ∧
      (0x41 : Byte) ≠ s.cdCfg.flag) ∧
    (∃ s : State, s.cdCfg.flag ≠ s.cdCfg.esc ∧ s.cd.regs.err = .none ∧ s.cd.regs.st = .escapeNext) ∧
    (∃ s : State, s.cdCfg.flag ≠ s.cdCfg.esc ∧ s.cd.regs.err = .none ∧ s.cd.regs.st = .done) :=
  ⟨⟨stateCd ref ⟨.done, 5, .pv, 3, false⟩ [] [], by decide⟩, ⟨stateCd ref .reset [] [], by decide⟩,
   ⟨stateCd ref ⟨.inFrame, 1, .none, 0, true⟩ [] [], by decide⟩,
   ⟨stateCd ref ⟨.escapeNext, 2, .none, 0, false⟩ [] [], by decide⟩,
   ⟨stateCd ref ⟨.done, 2, .none, 1, true⟩ [] [], by decide⟩⟩

theorem test_witness_CdEndReportsTheResult :
    (∃ s : State, s.cdCfg.flag ≠ s.cdCfg.esc ∧ s.cd.regs.err = .mf) ∧
    (∃ s : State, s.cdCfg.flag ≠ s.cdCfg.esc ∧ s.cd.regs.err = .pv ∧ s.cd.regs.lastflag = true) ∧
    (∃ s : State, s.cdCfg.flag ≠ s.cdCfg.esc ∧ s.cd.regs.err = .pv ∧ s.cd.regs.lastflag = false) ∧
    (∃ s : State, s.cdCfg.flag ≠ s.cdCfg.esc ∧ s.cd.regs.err = .none ∧ s.cd.regs.st = .done) ∧
    (∃ s : State, s.cdCfg.flag ≠ s.cdCfg.esc ∧ s.cd.regs.err = .none ∧ s.cd.regs.st ≠ .done) :=
  ⟨⟨stateCd ref ⟨.awaitFlag, 1, .mf, 0, false⟩ [] [], by decide⟩,
   ⟨stateCd ref ⟨.done, 6, .pv, 3, true⟩ [] [], by decide⟩,
   ⟨stateCd ref ⟨.done, 5, .pv, 3, false⟩ [] [], by decide⟩,
   ⟨stateCd ref ⟨.done, 2, .none, 1, true⟩ [] [], by decide⟩, ⟨stateCd ref .reset [] [], by decide⟩⟩

theorem test_witness_EqualFlagAndEscapeAreRefused :
    (stateCs same .reset [] []).csCfg.flag = (stateCs same .reset [] []).csCfg.esc ∧
    (stateCd same .reset [] []).cdCfg.flag = (stateCd same .reset [] []).cdCfg.esc := by decide

theorem test_witness_ResetAndEveryEnd :
    nextState (exec .bsEnd State.reset) ≠ none ∧ nextState (exec .bdEnd State.reset) ≠ none ∧
    nextState (exec .csEnd State.reset) ≠ none ∧ nextState (exec .cdEnd State.reset) ≠ none := by decide

/-- A state of the invariant that is not the reset state steps to a next state, the caller keeping its duty. -/
theorem test_witness_EveryStepKeepsTheInvariant :
    (held (.unit .cs)).Inv ∧ (held (.unit .cs)).CallerKeepsCfg ∧
    step (held (.unit .cs)) = .next { held (.unit .cs) with sched := [] } :=
  ⟨test_held_inv _, rfl, rfl⟩

/-- For each unit, an END that closes an open transaction. -/
theorem test_witness_OnlyEndAndResetEndATransaction :
    (∃ s t : State, step s = .next t ∧ s.bd.regs.idx ≠ 0 ∧ t.bd.regs.idx = 0) ∧
    (∃ s t : State, step s = .next t ∧ s.cs.regs.opened = true ∧ t.cs.regs.opened = false) ∧
    (∃ s t : State, step s = .next t ∧ s.cd.regs.idx ≠ 0 ∧ t.cd.regs.idx = 0) :=
  ⟨⟨stateBd ⟨1, 1, .none, 0⟩ [0b10] [.unit .bd], _, rfl, by decide, by decide⟩,
   ⟨stateCs ref ⟨true⟩ [0x100] [.unit .cs], _, rfl, by decide, by decide⟩,
   ⟨stateCd ref ⟨.inFrame, 1, .none, 0, true⟩ [] [.driveRst .cd true], _, rfl, by decide, by decide⟩⟩

/-- A turn of each unit that answers a next state. -/
theorem test_witness_UnitTurnTouchesOnlyItsUnit (p : Port) :
    (held (.unit p)).sched = .unit p :: [] ∧ ∃ t, step (held (.unit p)) = .next t := by
  cases p <;> exact ⟨rfl, _, rfl⟩

theorem test_witness_InterleavingDoesNotMatter : [Port.bs, .cs, .bs].Perm [.bs, .bs, .cs] := by decide

/-- The reset registers, which the statements on transactions start from. -/
theorem test_witness_reset_registers : State.reset.bs.regs = .reset ∧ State.reset.bd.regs = .reset ∧
    State.reset.cs.regs = .reset ∧ State.reset.cd.regs = .reset := by decide

theorem test_witness_BitDestuffTransaction :
    bitDestuff [1, 1, 1, 1] = .ok [1, 1, 1, 1] ∧ bitDestuff [1, 1, 1, 1, 1] = .fail .malformedFrame 5 := by decide

theorem test_witness_CharDestuffTransaction :
    charDestuff ref [0x7E, 0x7E] = .ok [] ∧ charDestuff ref [0x7E, 0x7E, 0x7E] = .fail .protocolViolation 1 := by decide

/-- Two symbols, one beat behind them, three turns, for each unit. -/
theorem test_witness_StepsOfAUnitRunTheTransaction :
    (∃ s : State, s.bs.rst = false ∧ s.bs.ready = true ∧ s.bs.inp = bitBeats [1, 0] ++ [0b11] ∧
      s.sched = List.replicate 3 (.unit .bs) ++ []) ∧
    (∃ s : State, s.bd.rst = false ∧ s.bd.ready = true ∧ s.bd.inp = bitBeats [1, 0] ++ [0b11] ∧
      s.sched = List.replicate 3 (.unit .bd) ++ []) ∧
    (∃ s : State, s.cs.rst = false ∧ s.cs.ready = true ∧ s.cs.inp = byteBeats [0x41, 0x7E] ++ [0x100] ∧
      s.sched = List.replicate 3 (.unit .cs) ++ []) ∧
    (∃ s : State, s.cd.rst = false ∧ s.cd.ready = true ∧ s.cd.inp = byteBeats [0x41, 0x7E] ++ [0x100] ∧
      s.sched = List.replicate 3 (.unit .cd) ++ []) :=
  ⟨⟨stateBs .reset [0b01, 0b00, 0b10, 0b11] (List.replicate 3 (.unit .bs)), by decide⟩,
   ⟨stateBd .reset [0b01, 0b00, 0b10, 0b11] (List.replicate 3 (.unit .bd)), by decide⟩,
   ⟨stateCs ref .reset [0x041, 0x07E, 0x100, 0x100] (List.replicate 3 (.unit .cs)), by decide⟩,
   ⟨stateCd ref .reset [0x041, 0x07E, 0x100, 0x100] (List.replicate 3 (.unit .cd)), by decide⟩⟩

theorem test_witness_LatchedErrorIsFrozenUntilEnd :
    (stateBd ⟨5, 7, .pv, 6⟩ [] []).bd.regs.err ≠ .none ∧
    (stateCd ref ⟨.awaitFlag, 1, .mf, 0, false⟩ [] []).cd.regs.err ≠ .none := by decide

/-- P6, begun with the one-bit payload `1`; P8, with the payload FLAG. -/
theorem test_witness_ConnectedUnitsRecoverThePayload :
    (∃ s : State, s.bs.regs = .reset ∧ s.bs.rst = false ∧ s.bs.ready = true ∧ s.bs.inp = bitBeats [1] ∧
      s.bs.out = [] ∧ s.bd.regs = .reset ∧ s.bd.rst = false ∧ s.bd.ready = true ∧ s.bd.inp = [] ∧
      (bitStuff [1]).length + 1 = 2 ∧ s.sched = List.replicate 2 (.unit .bs) ++
        List.replicate 2 (.connect .bits) ++ List.replicate 2 (.unit .bd) ++ []) ∧
    (∃ s : State, s.csCfg = s.cdCfg ∧ s.csCfg.flag ≠ s.csCfg.esc ∧ s.cs.regs = .reset ∧ s.cs.rst = false ∧
      s.cs.ready = true ∧ s.cs.inp = byteBeats [0x7E] ∧ s.cs.out = [] ∧ s.cd.regs = .reset ∧ s.cd.rst = false ∧
      s.cd.ready = true ∧ s.cd.inp = [] ∧ (charStuff s.csCfg [0x7E]).length + 1 = 5 ∧
      s.sched = List.replicate 2 (.unit .cs) ++ List.replicate 5 (.connect .bytes) ++
        List.replicate 5 (.unit .cd) ++ []) :=
  ⟨⟨stateBs .reset [0b01, 0b10] (List.replicate 2 (.unit .bs) ++ List.replicate 2 (.connect .bits) ++
      List.replicate 2 (.unit .bd)), by decide⟩,
   ⟨stateCs ref .reset [0x07E, 0x100] (List.replicate 2 (.unit .cs) ++ List.replicate 5 (.connect .bytes) ++
      List.replicate 5 (.unit .cd)), by decide⟩⟩

/-- Offsets that just fit and just do not. -/
theorem test_witness_OutputBeatsReadBack : (OutEvent.abort .malformedFrame 3 : OutEvent Bit).fits 2 = true ∧
    (OutEvent.abort .malformedFrame 4 : OutEvent Bit).fits 2 = false := by decide

/-- END beats and SYM beats of both widths. -/
theorem test_witness_EveryBeatIsExactlyOneEvent :
    (0b01#2).getLsbD 1 = false ∧ (0b11#2).getLsbD 1 = true ∧ (0x0FF#9).getLsbD 8 = false ∧ (0x100#9).getLsbD 8 = true := by
  decide

/-- The five ones of V1 and the zero after them; runs of up to four ones. -/
theorem test_witness_BitStuffedFormHasNoLongRun :
    ((bitStuff (bits "11111")).drop 0).take 5 = List.replicate 5 1#1 ∧ 4 ≤ 4 := by decide

theorem test_witness_CharLengths : charDestuff ref [0x7E, 0x7E] = .ok [] := by decide

/-- A byte that is neither FLAG nor ESC (V44). -/
theorem test_witness_NeedlessEscape : (0x41 : Byte) ≠ ref.flag ∧ (0x41 : Byte) ≠ ref.esc ∧
    charDestuff ref [0x7E, 0x7D, 0x41, 0x7E] = .ok [0x41] := by decide

/-- V12, V14: an accepted sequence, a violation and a truncated one. -/
theorem test_witness_BitDestuffAcceptance : bitDestuff [1] = .ok [1] ∧
    bitDestuff (bits "111111") = .fail .protocolViolation 5 ∧ bitDestuff (bits "11111") = .fail .malformedFrame 5 := by
  decide

/-- Five ones before the flag are no six-run (V17 with a part before it). -/
theorem test_witness_FlagLeftOnTheInput : ¬ List.replicate 6 1#1 <:+: List.replicate 5 1#1 := by
  intro h
  have := h.length_le
  simp at this

/-- Items of both kinds, an escape pair of a FLAG among them. -/
theorem test_witness_CdCausesInOrder : (∀ i ∈ [Item.plain 0x41, .pair 0x7E, .pair 0x41], i.legal ref = true) ∧
    (0x41 : Byte) ≠ ref.flag := by decide

end Sys2Proof.Tests
end

section
/-! The scope's statements (spec/00_scope.md): what a consumer reads off an output stream (R14), and which
event a unit's turn runs (R7, R53). -/

namespace Sys2Proof.Machine

/-! ## The consumer's reading -/

/-- Symbols put in front of an `ok` result are read before its own symbols. -/
theorem foldr_consResult_ok {α : Type} (vs ws : List α) :
    vs.foldr consResult (.ok ws) = .ok (vs ++ ws) := by
  induction vs with
  | nil => rfl
  | cons v vs ih => simp [ih, consResult]

/-- Symbols put in front of a `fail` result are void (R55). -/
theorem foldr_consResult_fail {α : Type} (vs : List α) (k : ErrKind) (off : Nat) :
    vs.foldr consResult (.fail k off) = .fail k off := by
  induction vs with
  | nil => rfl
  | cons v vs ih => simp [ih, consResult]

/-- Leading `OUT` events only put their symbols in front of what the rest of the stream reads as. -/
theorem readResult_map_out_append {α : Type} (vs : List α) (es : List (OutEvent α)) :
    readResult (vs.map .out ++ es) = (readResult es).map fun r => (vs.foldr consResult r.1, r.2) := by
  induction vs with
  | nil => simp
  | cons v vs ih => simp [readResult, ih, Function.comp_def]

/-- Settles O40, from how leading `OUT` events act on a reading: the terminator gives the result, and the
symbols are put in front of an `ok` and dropped before a `fail`. -/
theorem resultIsReadAtTheTerminator : Obligations.ResultIsReadAtTheTerminator := by
  intro α vs es
  refine ⟨?done, fun k off => ?abort, ?noTerminator⟩
  case done => simp [readResult_map_out_append, readResult, foldr_consResult_ok]
  case abort => simp [readResult_map_out_append, readResult, foldr_consResult_fail]
  case noTerminator => simpa [readResult] using readResult_map_out_append vs []

/-! ## The event a unit's turn runs -/

/-- A step whose first turn is a unit's runs the event that unit fetches once the turn is off the schedule. -/
theorem step_of_fetchEvent {s t : State} {p : Port} {ts : List Turn} {i : Instr}
    (hs : s.sched = .unit p :: ts) (hf : fetchEvent p (s.setSched ts) = some (i, t)) :
    step s = exec i t := by
  rw [step_of_unit hs]
  simp [turnOutcome, unitTurn, hf]

/-- Settles O9: in each unit the fetched event is the decoded oldest beat, by `Lane.fetch_of_beat`. -/
theorem stepRunsTheFetchedEvent : Obligations.StepRunsTheFetchedEvent := by
  intro s ts
  refine ⟨?bs, ?bd, ?cs, ?cd⟩ <;> intro w ws hs hrst hready hinp <;> refine step_of_fetchEvent hs ?_
  case bs => simp [fetchEvent, Lane.fetch_of_beat hrst hready hinp, State.setBs, State.setSched]
  case bd => simp [fetchEvent, Lane.fetch_of_beat hrst hready hinp, State.setBd, State.setSched]
  case cs => simp [fetchEvent, Lane.fetch_of_beat hrst hready hinp, State.setCs, State.setSched]
  case cd => simp [fetchEvent, Lane.fetch_of_beat hrst hready hinp, State.setCd, State.setSched]

end Sys2Proof.Machine
end

section
/-! The invariant of the block (spec/10_state.md R38): a unit is judged by itself, every update of a unit keeps
its soundness, and a turn is such updates. -/

namespace Sys2Proof.Machine

/-! ## Soundness of one unit -/

section
variable {ρ β α : Type}

/-- One unit's share of `State.Inv`: legal registers, allowed events on its output, and the reset registers
while held in reset (R38, R215, R240). `State.inv_iff` ties it to the invariant of the block. -/
structure Lane.Sound (legal : ρ → Prop) (allowed : OutEvent α → Prop) (init : ρ) (l : Lane ρ β α) : Prop where
  /-- The registers are legal. -/
  regs : legal l.regs
  /-- Every event on the output is allowed there. -/
  out : ∀ e ∈ l.out, allowed e
  /-- Held in reset, the unit is in its reset state. -/
  held : l.HeldReset init

variable {legal : ρ → Prop} {allowed : OutEvent α → Prop} {init : ρ} {l : Lane ρ β α}

theorem Lane.sound_reset (hinit : legal init) : (Lane.reset init : Lane ρ β α).Sound legal allowed init :=
  ⟨hinit, by simp [Lane.reset], fun _ => rfl⟩

theorem Lane.Sound.deliver (h : l.Sound legal allowed init) (w : β) :
    (l.deliver w).Sound legal allowed init := ⟨h.regs, h.out, h.held⟩

theorem Lane.Sound.driveReady (h : l.Sound legal allowed init) (b : Bool) :
    (l.driveReady b).Sound legal allowed init := ⟨h.regs, h.out, h.held⟩

theorem Lane.Sound.take (h : l.Sound legal allowed init) : l.take.Sound legal allowed init :=
  ⟨h.regs, fun e he => h.out e (List.mem_of_mem_tail he), h.held⟩

/-- Asserting reset writes the reset values, and releasing it leaves nothing to hold. -/
theorem Lane.Sound.driveRst (h : l.Sound legal allowed init) (hinit : legal init) (b : Bool) :
    (l.driveRst init b).Sound legal allowed init := by
  cases b with
  | true => exact ⟨hinit, h.out, fun _ => rfl⟩
  | false => exact ⟨h.regs, h.out, fun hrst => by simp at hrst⟩

/-- A reaction is sound when its registers and outputs are: a unit that takes an event is not held in reset. -/
theorem Lane.Sound.react_of_fetch {l' : Lane ρ β α} {w : β} (h : l.Sound legal allowed init)
    (hf : l.fetch = some (w, l')) {r : Reaction ρ α} (hregs : legal r.regs)
    (houts : ∀ e ∈ r.outs, allowed e) : (l'.react r).Sound legal allowed init := by
  obtain ⟨hrst, -, -, hl'⟩ := Lane.fetch_eq_some hf
  rw [hl']
  refine ⟨hregs, fun e he => ?_, fun hheld => by simp [hrst] at hheld⟩
  obtain he | he := List.mem_append.1 he
  · exact h.out e he
  · exact houts e he

/-- Taking an event leaves the registers to the reaction. -/
theorem Lane.fetch_regs {l' : Lane ρ β α} {w : β} (hf : l.fetch = some (w, l')) : l'.regs = l.regs := by
  obtain ⟨-, -, -, hl'⟩ := Lane.fetch_eq_some hf
  rw [hl']

end

/-- BS is sound: R38 and no ABORT on its output (R215). -/
abbrev BsSound (l : Lane BsRegs BitBeat Bit) : Prop := l.Sound BsRegs.Legal (notAbort · = true) .reset
/-- BD is sound: R38, any event on its output. -/
abbrev BdSound (l : Lane BdRegs BitBeat Bit) : Prop := l.Sound BdRegs.Legal (fun _ => True) .reset
/-- CS is sound: any registers, no ABORT on its output (R215). -/
abbrev CsSound (l : Lane CsRegs ByteBeat Byte) : Prop := l.Sound (fun _ => True) (notAbort · = true) .reset
/-- CD is sound: R38, any event on its output. -/
abbrev CdSound (l : Lane CdRegs ByteBeat Byte) : Prop := l.Sound CdRegs.Legal (fun _ => True) .reset

/-! ## The invariant of the block, unit by unit -/

theorem State.inv_iff (s : State) :
    s.Inv ↔ BsSound s.bs ∧ BdSound s.bd ∧ CsSound s.cs ∧ CdSound s.cd where
  mp h := ⟨⟨h.bs, h.bsOut, h.bsHeld⟩, ⟨h.bd, fun _ _ => trivial, h.bdHeld⟩,
    ⟨trivial, h.csOut, h.csHeld⟩, ⟨h.cd, fun _ _ => trivial, h.cdHeld⟩⟩
  mpr := fun ⟨hbs, hbd, hcs, hcd⟩ =>
    { bs := hbs.regs, bd := hbd.regs, cd := hcd.regs, bsOut := hbs.out, csOut := hcs.out,
      bsHeld := hbs.held, bdHeld := hbd.held, csHeld := hcs.held, cdHeld := hcd.held }

section
variable {s : State}

theorem State.Inv.bsSound (h : s.Inv) : BsSound s.bs := (s.inv_iff.1 h).1
theorem State.Inv.bdSound (h : s.Inv) : BdSound s.bd := (s.inv_iff.1 h).2.1
theorem State.Inv.csSound (h : s.Inv) : CsSound s.cs := (s.inv_iff.1 h).2.2.1
theorem State.Inv.cdSound (h : s.Inv) : CdSound s.cd := (s.inv_iff.1 h).2.2.2

theorem State.Inv.setBs (h : s.Inv) {l : Lane BsRegs BitBeat Bit} (hl : BsSound l) : (s.setBs l).Inv :=
  (State.inv_iff _).2 ⟨hl, h.bdSound, h.csSound, h.cdSound⟩
theorem State.Inv.setBd (h : s.Inv) {l : Lane BdRegs BitBeat Bit} (hl : BdSound l) : (s.setBd l).Inv :=
  (State.inv_iff _).2 ⟨h.bsSound, hl, h.csSound, h.cdSound⟩
theorem State.Inv.setCs (h : s.Inv) {l : Lane CsRegs ByteBeat Byte} (hl : CsSound l) : (s.setCs l).Inv :=
  (State.inv_iff _).2 ⟨h.bsSound, h.bdSound, hl, h.cdSound⟩
theorem State.Inv.setCd (h : s.Inv) {l : Lane CdRegs ByteBeat Byte} (hl : CdSound l) : (s.setCd l).Inv :=
  (State.inv_iff _).2 ⟨h.bsSound, h.bdSound, h.csSound, hl⟩

theorem State.Inv.setCsCfg (h : s.Inv) (c : CharCfg) : (s.setCsCfg c).Inv :=
  (State.inv_iff _).2 (s.inv_iff.1 h)
theorem State.Inv.setCdCfg (h : s.Inv) (c : CharCfg) : (s.setCdCfg c).Inv :=
  (State.inv_iff _).2 (s.inv_iff.1 h)
theorem State.Inv.setSched (h : s.Inv) (ts : List Turn) : (s.setSched ts).Inv :=
  (State.inv_iff _).2 (s.inv_iff.1 h)

end

/-! ## Every reaction keeps its unit's registers legal -/

theorem BsRegs.reset_legal : BsRegs.Legal .reset := Nat.zero_le 4
theorem BdRegs.reset_legal : BdRegs.Legal .reset := ⟨Nat.zero_le 5, nofun, nofun, nofun⟩
theorem CdRegs.reset_legal : CdRegs.Legal .reset := ⟨fun _ _ => rfl, nofun, nofun, nofun⟩

theorem bsEndReaction_notAbort : ∀ e ∈ bsEndReaction.outs, notAbort e = true := by
  simp [bsEndReaction, notAbort]

theorem bsSymReaction_legal {r : BsRegs} (h : r.Legal) (v : Bit) : (bsSymReaction v r).regs.Legal := by
  have hcnt : r.cnt.toNat ≤ 4 := h
  simp only [bsSymReaction]
  split
  · split
    · exact Nat.zero_le 4
    · next hrun =>
      simp only [emit_regs, BsRegs.Legal, runAfterOne, Config.RUN] at hrun ⊢
      rw [storeRun_toNat] <;> omega
  · exact Nat.zero_le 4

/-- Without a latched error, any counter within R38 is legal. -/
theorem BdRegs.legal_of_no_error {r : BdRegs} (herr : r.err = .none) (hcnt : r.cnt.toNat ≤ 5) : r.Legal :=
  ⟨hcnt, by simp [herr], by simp [herr], by simp [herr]⟩

theorem bdSymReaction_legal {r : BdRegs} (h : r.Legal) (v : Bit) : (bdSymReaction v r).regs.Legal := by
  obtain ⟨hcnt, hmf, hoff, hpv⟩ := h
  simp only [bdSymReaction]
  split
  · next herr =>
    split
    · next hrun =>
      split
      · exact BdRegs.legal_of_no_error herr (Nat.zero_le 5)
      · exact ⟨hcnt, nofun, fun _ => Nat.lt_succ_self r.idx, fun _ => hrun⟩
    · next hrun =>
      split
      · refine BdRegs.legal_of_no_error herr ?_
        simp only [emit_regs, runAfterOne, Config.RUN] at hrun ⊢
        rw [storeRun_toNat] <;> omega
      · exact BdRegs.legal_of_no_error herr (Nat.zero_le 5)
  · exact ⟨hcnt, hmf, fun he => Nat.lt_succ_of_lt (hoff he), hpv⟩

theorem cdSymReaction_legal {r : CdRegs} (h : r.Legal) (c : CharCfg) (v : Byte) :
    (cdSymReaction c v r).regs.Legal := by
  obtain ⟨hawait, hmf, hpv, hdone⟩ := h
  obtain ⟨st, idx, err, eoff, lastflag⟩ := r
  cases err with
  | mf => exact ⟨nofun, hmf, nofun, nofun⟩
  | pv => exact ⟨nofun, nofun, fun he => ⟨(hpv he).1, Nat.lt_succ_of_lt (hpv he).2⟩, nofun⟩
  | none =>
    cases st with
    | awaitFlag =>
      simp only [cdSymReaction, if_true]
      split
      · exact ⟨nofun, nofun, nofun, nofun⟩
      · exact ⟨nofun, fun _ => ⟨hawait rfl rfl, rfl⟩, nofun, nofun⟩
    | inFrame =>
      simp only [cdSymReaction, if_true]
      split
      · exact ⟨nofun, nofun, nofun, nofun⟩
      · split
        · next hflag => exact ⟨nofun, nofun, nofun, fun _ _ => ⟨rfl, beq_iff_eq.2 hflag⟩⟩
        · exact ⟨nofun, nofun, nofun, nofun⟩
    | escapeNext => exact ⟨nofun, nofun, nofun, nofun⟩
    | done =>
      have hoff : eoff + 1 = idx := (hdone rfl rfl).1
      exact ⟨nofun, nofun, fun _ => ⟨rfl, hoff ▸ Nat.lt_succ_self _⟩, nofun⟩

/-! ## Every turn keeps the invariant -/

theorem bsTurn_sound {l : Lane BsRegs BitBeat Bit} (h : BsSound l) : BsSound (bsTurn l) := by
  simp only [bsTurn]
  split
  · exact h
  · next hf =>
    rw [Lane.fetch_regs hf]
    split
    · exact h.react_of_fetch hf (bsSymReaction_legal h.regs _) (bsSymReaction_notAbort _ _)
    · exact h.react_of_fetch hf BsRegs.reset_legal bsEndReaction_notAbort

theorem bdTurn_sound {l : Lane BdRegs BitBeat Bit} (h : BdSound l) : BdSound (bdTurn l) := by
  simp only [bdTurn]
  split
  · exact h
  · next hf =>
    rw [Lane.fetch_regs hf]
    split
    · exact h.react_of_fetch hf (bdSymReaction_legal h.regs _) fun _ _ => trivial
    · exact h.react_of_fetch hf (bdEndReaction_regs _ ▸ BdRegs.reset_legal) fun _ _ => trivial

theorem csTurn_sound {c : CharCfg} {l l' : Lane CsRegs ByteBeat Byte} (h : CsSound l)
    (ht : csTurn c l = some l') : CsSound l' := by
  simp only [csTurn] at ht
  split at ht
  · exact Option.some.inj ht ▸ h
  · next hf =>
    split at ht
    · rw [← Option.some.inj ht]
      split
      · exact h.react_of_fetch hf trivial (csSymReaction_notAbort _ _ _)
      · exact h.react_of_fetch hf trivial (csEndReaction_notAbort _ _)
    · cases ht

theorem cdTurn_sound {c : CharCfg} {l l' : Lane CdRegs ByteBeat Byte} (h : CdSound l)
    (ht : cdTurn c l = some l') : CdSound l' := by
  simp only [cdTurn] at ht
  split at ht
  · exact Option.some.inj ht ▸ h
  · next hf =>
    split at ht
    · rw [← Option.some.inj ht, Lane.fetch_regs hf]
      split
      · exact h.react_of_fetch hf (cdSymReaction_legal h.regs _ _) fun _ _ => trivial
      · exact h.react_of_fetch hf (cdEndReaction_regs _ ▸ CdRegs.reset_legal) fun _ _ => trivial
    · cases ht

theorem turnOutcome_cs_eq_next {s t : State} (h : turnOutcome .cs s = .next t) :
    ∃ l, csTurn s.csCfg s.cs = some l ∧ t = s.setCs l := by
  rw [turnOutcome_cs] at h
  split at h
  · next l hl => exact ⟨l, hl, by simpa using h.symm⟩
  · cases h

theorem turnOutcome_cd_eq_next {s t : State} (h : turnOutcome .cd s = .next t) :
    ∃ l, cdTurn s.cdCfg s.cd = some l ∧ t = s.setCd l := by
  rw [turnOutcome_cd] at h
  split at h
  · next l hl => exact ⟨l, hl, by simpa using h.symm⟩
  · cases h

section
variable {s t : State}

theorem turnOutcome_inv (h : s.Inv) {p : Port} (ht : turnOutcome p s = .next t) : t.Inv := by
  cases p with
  | bs =>
    rw [turnOutcome_bs] at ht
    cases ht
    exact h.setBs (bsTurn_sound h.bsSound)
  | bd =>
    rw [turnOutcome_bd] at ht
    cases ht
    exact h.setBd (bdTurn_sound h.bdSound)
  | cs =>
    obtain ⟨l, hl, rfl⟩ := turnOutcome_cs_eq_next ht
    exact h.setCs (csTurn_sound h.csSound hl)
  | cd =>
    obtain ⟨l, hl, rfl⟩ := turnOutcome_cd_eq_next ht
    exact h.setCd (cdTurn_sound h.cdSound hl)

theorem deliver_inv (h : s.Inv) (b : PortBeat) : (deliver b s).Inv := by
  cases b with
  | bs w => exact h.setBs (h.bsSound.deliver w)
  | bd w => exact h.setBd (h.bdSound.deliver w)
  | cs w => exact h.setCs (h.csSound.deliver w)
  | cd w => exact h.setCd (h.cdSound.deliver w)

theorem takeOut_inv (h : s.Inv) (p : Port) : (takeOut p s).Inv := by
  cases p with
  | bs => exact h.setBs h.bsSound.take
  | bd => exact h.setBd h.bdSound.take
  | cs => exact h.setCs h.csSound.take
  | cd => exact h.setCd h.cdSound.take

theorem driveRst_inv (h : s.Inv) (p : Port) (b : Bool) : (driveRst p b s).Inv := by
  cases p with
  | bs => exact h.setBs (h.bsSound.driveRst BsRegs.reset_legal b)
  | bd => exact h.setBd (h.bdSound.driveRst BdRegs.reset_legal b)
  | cs => exact h.setCs (h.csSound.driveRst trivial b)
  | cd => exact h.setCd (h.cdSound.driveRst CdRegs.reset_legal b)

theorem driveReady_inv (h : s.Inv) (p : Port) (b : Bool) : (driveReady p b s).Inv := by
  cases p with
  | bs => exact h.setBs (h.bsSound.driveReady b)
  | bd => exact h.setBd (h.bdSound.driveReady b)
  | cs => exact h.setCs (h.csSound.driveReady b)
  | cd => exact h.setCd (h.cdSound.driveReady b)

/-- A connection that answers a next state found no event, or moved the oldest one. -/
theorem connect_eq_next {k : Link} (ht : connect k s = .next t) :
    t = s ∨ (∃ w, t = (s.setBs s.bs.take).setBd (s.bd.deliver w)) ∨
      ∃ w, t = (s.setCs s.cs.take).setCd (s.cd.deliver w) := by
  cases k with
  | bits =>
    simp only [connect] at ht
    split at ht
    · exact .inl (by simpa using ht.symm)
    · split at ht
      · exact .inr (.inl ⟨_, by simpa using ht.symm⟩)
      · cases ht
  | bytes =>
    simp only [connect] at ht
    split at ht
    · exact .inl (by simpa using ht.symm)
    · split at ht
      · exact .inr (.inr ⟨_, by simpa using ht.symm⟩)
      · cases ht

theorem connect_inv (h : s.Inv) {k : Link} (ht : connect k s = .next t) : t.Inv := by
  obtain rfl | ⟨w, rfl⟩ | ⟨w, rfl⟩ := connect_eq_next ht
  · exact h
  · exact (h.setBs h.bsSound.take).setBd (h.bdSound.deliver w)
  · exact (h.setCs h.csSound.take).setCd (h.cdSound.deliver w)

theorem driveCsCfg_eq_next {c : CharCfg} (ht : driveCsCfg c s = .next t) : t = s.setCsCfg c := by
  simp only [driveCsCfg] at ht
  split at ht
  · cases ht
  · simpa using ht.symm

theorem driveCdCfg_eq_next {c : CharCfg} (ht : driveCdCfg c s = .next t) : t = s.setCdCfg c := by
  simp only [driveCdCfg] at ht
  split at ht
  · cases ht
  · simpa using ht.symm

/-- Whatever the first turn is, a unit's or the caller's, its outcome keeps the invariant. -/
theorem step_keeps_inv_of_turn (h : s.Inv) {a : Turn} {ts : List Turn} (hs : s.sched = a :: ts)
    (ht : step s = .next t) : t.Inv := by
  have h' : (s.setSched ts).Inv := h.setSched ts
  cases a with
  | unit p =>
    rw [step_of_unit hs] at ht
    exact turnOutcome_inv h' ht
  | send b =>
    rw [step_of_turn hs] at ht
    cases ht
    exact deliver_inv h' b
  | take p =>
    rw [step_of_turn hs] at ht
    cases ht
    exact takeOut_inv h' p
  | connect k =>
    rw [step_of_turn hs] at ht
    exact connect_inv h' ht
  | driveCsCfg c =>
    rw [step_of_turn hs] at ht
    rw [driveCsCfg_eq_next ht]
    exact h'.setCsCfg c
  | driveCdCfg c =>
    rw [step_of_turn hs] at ht
    rw [driveCdCfg_eq_next ht]
    exact h'.setCdCfg c
  | driveRst p b =>
    rw [step_of_turn hs] at ht
    cases ht
    exact driveRst_inv h' p b
  | driveReady p b =>
    rw [step_of_turn hs] at ht
    cases ht
    exact driveReady_inv h' p b

end

/-- Settles O28: each unit is sound right after reset. -/
theorem invariantHoldsAfterReset : Obligations.InvariantHoldsAfterReset :=
  (State.inv_iff _).2 ⟨Lane.sound_reset BsRegs.reset_legal, Lane.sound_reset BdRegs.reset_legal,
    Lane.sound_reset trivial, Lane.sound_reset CdRegs.reset_legal⟩

/-- Settles O29: an idle step changes nothing, and every turn keeps each unit sound. -/
theorem everyStepKeepsTheInvariant : Obligations.EveryStepKeepsTheInvariant := by
  intro s t h ht
  cases hs : s.sched with
  | nil =>
    rw [step_idle hs] at ht
    cases ht
    exact h
  | cons a ts => exact step_keeps_inv_of_turn h hs ht

end Sys2Proof.Machine
end

section
/-! The registers and the configuration of the block over lists of events and single turns (spec/10_state.md
R20, R25, R26, R30, R31, R34, R37): a list of SYM events as one update of its unit, the reset values END
leaves, and the caller's change of the configuration. -/

namespace Sys2Proof.Machine

/-! ## Lists of SYM events -/

/-- What a list of `BD.SYM` events makes of BD (`runEvents_bdSym`). -/
def bdSyms (ys : BitSequence) (l : Lane BdRegs BitBeat Bit) : Lane BdRegs BitBeat Bit :=
  ys.foldl (fun l v => l.react (bdSymReaction v l.regs)) l

/-- What a list of `CD.SYM` events makes of CD (`runEvents_cdSym`). -/
def cdSyms (c : CharCfg) (ys : ByteSequence) (l : Lane CdRegs ByteBeat Byte) : Lane CdRegs ByteBeat Byte :=
  ys.foldl (fun l v => l.react (cdSymReaction c v l.regs)) l

@[simp] theorem bdSyms_nil (l : Lane BdRegs BitBeat Bit) : bdSyms [] l = l := rfl
@[simp] theorem bdSyms_cons (v : Bit) (ys : BitSequence) (l : Lane BdRegs BitBeat Bit) :
    bdSyms (v :: ys) l = bdSyms ys (l.react (bdSymReaction v l.regs)) := rfl
@[simp] theorem cdSyms_nil (c : CharCfg) (l : Lane CdRegs ByteBeat Byte) : cdSyms c [] l = l := rfl
@[simp] theorem cdSyms_cons (c : CharCfg) (v : Byte) (ys : ByteSequence) (l : Lane CdRegs ByteBeat Byte) :
    cdSyms c (v :: ys) l = cdSyms c ys (l.react (cdSymReaction c v l.regs)) := rfl

theorem runEvents_bdSym (ys : BitSequence) (s : State) :
    runEvents (ys.map .bdSym) s = .next (s.setBd (bdSyms ys s.bd)) := by
  induction ys generalizing s with
  | nil => rfl
  | cons v ys ih => simp [runEvents, exec_bdSym, ih, State.setBd]

theorem runEvents_cdSym {s : State} (h : s.cdCfg.wf = true) (ys : ByteSequence) :
    runEvents (ys.map .cdSym) s = .next (s.setCd (cdSyms s.cdCfg ys s.cd)) := by
  induction ys generalizing s with
  | nil => rfl
  | cons v ys ih => simp [runEvents, exec_cdSym h, ih, h, State.setCd]

theorem bdSyms_idx (ys : BitSequence) (l : Lane BdRegs BitBeat Bit) :
    (bdSyms ys l).regs.idx = l.regs.idx + ys.length := by
  induction ys generalizing l with
  | nil => rfl
  | cons v ys ih => simp [ih]; omega

theorem cdSyms_idx (c : CharCfg) (ys : ByteSequence) (l : Lane CdRegs ByteBeat Byte) :
    (cdSyms c ys l).regs.idx = l.regs.idx + ys.length := by
  induction ys generalizing l with
  | nil => rfl
  | cons v ys ih => simp [ih]; omega

/-- Settles O42: the list is one update of the unit, and each symbol of it counts one. -/
theorem indexCountersCountSymbols : Obligations.IndexCountersCountSymbols := by
  intro s
  refine ⟨fun ys => ⟨_, runEvents_bdSym ys s, bdSyms_idx ys s.bd⟩, fun hcfg ys => ?_⟩
  exact ⟨_, runEvents_cdSym ((CharCfg_wf_iff _).2 hcfg) ys, cdSyms_idx s.cdCfg ys s.cd⟩

/-! ## A latched error -/

theorem bdSymReaction_of_err {r : BdRegs} (h : r.err ≠ .none) (v : Bit) :
    bdSymReaction v r = emit { r with idx := r.idx + 1 } [] := if_neg h

theorem cdSymReaction_of_err {r : CdRegs} (h : r.err ≠ .none) (c : CharCfg) (v : Byte) :
    cdSymReaction c v r = emit { r with lastflag := lastFlagOf c v, idx := r.idx + 1 } [] := if_neg h

/-- With an error latched BD only counts. -/
theorem bdSyms_of_err {l : Lane BdRegs BitBeat Bit} (h : l.regs.err ≠ .none) (ys : BitSequence) :
    bdSyms ys l = { l with regs := { l.regs with idx := l.regs.idx + ys.length } } := by
  induction ys generalizing l with
  | nil => rfl
  | cons v ys ih =>
    rw [bdSyms_cons, bdSymReaction_of_err h]
    refine (ih (by exact h)).trans ?_
    simp [Lane.react, emit, Nat.add_assoc, Nat.add_comm 1]

/-- With an error latched CD only counts and watches for the last FLAG. -/
theorem cdSyms_of_err {l : Lane CdRegs ByteBeat Byte} (h : l.regs.err ≠ .none) (c : CharCfg)
    (ys : ByteSequence) : cdSyms c ys l = { l with regs := { l.regs with
      idx := l.regs.idx + ys.length
      lastflag := (ys.getLast?.map (lastFlagOf c)).getD l.regs.lastflag } } := by
  induction ys generalizing l with
  | nil => rfl
  | cons v ys ih =>
    rw [cdSyms_cons, cdSymReaction_of_err h]
    refine (ih (by exact h)).trans ?_
    simp [Lane.react, emit, Nat.add_assoc, Nat.add_comm 1, List.getLast?_cons]

/-- Settles O43: with an error latched every symbol has the one reaction that counts it. -/
theorem latchedErrorIsFrozenUntilEnd : Obligations.LatchedErrorIsFrozenUntilEnd := by
  intro s
  refine ⟨fun herr ys => ?_, fun hcfg herr ys => ?_⟩
  · rw [runEvents_bdSym, bdSyms_of_err herr]
    rfl
  · rw [runEvents_cdSym ((CharCfg_wf_iff _).2 hcfg), cdSyms_of_err herr]
    rfl

/-! ## END -/

/-- Settles O27: whichever result an END reports, its reaction writes the reset registers. -/
theorem resetAndEveryEndGiveTheResetValues : Obligations.ResetAndEveryEndGiveTheResetValues := by
  refine ⟨rfl, rfl, rfl, rfl, fun s t h => ?bs, fun s t h => ?bd, fun s t h => ?cs, fun s t h => ?cd⟩
  case bs =>
    cases h
    rfl
  case bd =>
    cases h
    exact bdEndReaction_regs s.bd.regs
  case cs =>
    obtain ⟨-, rfl⟩ := exec_csEnd_eq_next h
    exact csEndReaction_regs s.csCfg s.cs.regs
  case cd =>
    obtain ⟨-, rfl⟩ := exec_cdEnd_eq_next h
    exact cdEndReaction_regs s.cd.regs

/-! ## A unit's turn is confined to its unit -/

/-- Settles O32: the outcome of a unit's turn is an update of that unit. -/
theorem unitTurnTouchesOnlyItsUnit : Obligations.UnitTurnTouchesOnlyItsUnit := by
  intro s t ts ht
  refine ⟨fun hs => ?bs, fun hs => ?bd, fun hs => ?cs, fun hs => ?cd⟩ <;> rw [step_of_unit hs] at ht
  case bs =>
    rw [turnOutcome_bs] at ht
    cases ht
    rfl
  case bd =>
    rw [turnOutcome_bd] at ht
    cases ht
    rfl
  case cs =>
    obtain ⟨l, -, rfl⟩ := turnOutcome_cs_eq_next ht
    rfl
  case cd =>
    obtain ⟨l, -, rfl⟩ := turnOutcome_cd_eq_next ht
    rfl

/-! ## The caller's change of the configuration -/

theorem driveCsCfg_of_allowed {s : State} {c : CharCfg} (h : s.cs.regs.opened = false ∨ c = s.csCfg) :
    driveCsCfg c s = .next (s.setCsCfg c) := by
  obtain h | h := h <;> simp [driveCsCfg, CsRegs.inTransaction, h]

theorem driveCsCfg_of_inTransaction {s : State} {c : CharCfg} (hopen : s.cs.regs.opened = true)
    (hc : c ≠ s.csCfg) : driveCsCfg c s = .refused .cfgChangedInTransaction := by
  simp [driveCsCfg, CsRegs.inTransaction, hopen, hc]

theorem driveCdCfg_of_allowed {s : State} {c : CharCfg} (h : s.cd.regs.idx = 0 ∨ c = s.cdCfg) :
    driveCdCfg c s = .next (s.setCdCfg c) := by
  obtain h | h := h <;> simp [driveCdCfg, CdRegs.inTransaction, h]

theorem driveCdCfg_of_inTransaction {s : State} {c : CharCfg} (hidx : s.cd.regs.idx ≠ 0)
    (hc : c ≠ s.cdCfg) : driveCdCfg c s = .refused .cfgChangedInTransaction := by
  simp [driveCdCfg, CdRegs.inTransaction, hidx, hc]

/-- A run takes its first step off its fuel; for any machine behind the host's interface. -/
theorem run_succ_of_step {M : Host.Core} {s t : M.State} (h : M.step s = .next t) (k : Nat) :
    M.run (k + 1) s = M.run k t := by
  rw [Host.Core.run, h]

/-- An END on CS with no transaction open is the empty frame: FLAG twice and DONE. -/
theorem csEndReaction_reset (c : CharCfg) :
    csEndReaction c .reset = ⟨.reset, [.out c.flag, .out c.flag, .done]⟩ := rfl

/-- The only beat on the input is the END of an empty transaction: one step closes it. -/
theorem step_csEnd_of_closed {s : State} {ts : List Turn} (hs : s.sched = .unit .cs :: ts)
    (hcfg : s.csCfg.flag ≠ s.csCfg.esc) (hopen : s.cs.regs.opened = false) (hrst : s.cs.rst = false)
    (hready : s.cs.ready = true) (hinp : s.cs.inp = [0x100]) :
    step s = .next { s with
      cs := { s.cs with
        inp := [], out := s.cs.out ++ [.out s.csCfg.flag, .out s.csCfg.flag, .done] }, sched := ts } := by
  obtain ⟨-, -, hcs, -⟩ := stepRunsTheFetchedEvent s ts
  have hreset : s.cs.regs = .reset := congrArg CsRegs.mk hopen
  have hbeat : decodeBeat (.cs 0x100) = .csEnd := by decide
  rw [hcs 0x100 [] hs hrst hready hinp, hbeat]
  refine (exec_csEnd (by exact (CharCfg_wf_iff _).2 hcfg)).trans ?_
  simp [hreset, csEndReaction_reset, State.setCs, Lane.react]

/-- Settles O14: a change is allowed or refused by whether a transaction is open, and the END right after an
allowed one runs with the new value. -/
theorem configurationChangesOnlyBetweenTransactions :
    Obligations.ConfigurationChangesOnlyBetweenTransactions := by
  intro s ts c
  refine ⟨fun hs h => ?csAllowed, fun hs hopen hc => ?csRefused, fun hs h => ?cdAllowed,
    fun hs hidx hc => ?cdRefused, fun hopen hs hc hrst hready hinp => ?seenAtOnce⟩
  case csAllowed => exact (step_of_turn hs).trans (driveCsCfg_of_allowed h)
  case csRefused => exact (step_of_turn hs).trans (driveCsCfg_of_inTransaction hopen hc)
  case cdAllowed => exact (step_of_turn hs).trans (driveCdCfg_of_allowed h)
  case cdRefused => exact (step_of_turn hs).trans (driveCdCfg_of_inTransaction hidx hc)
  case seenAtOnce =>
    have hdrive : step s = .next ((s.setSched (.unit .cs :: ts)).setCsCfg c) :=
      (step_of_turn hs).trans (driveCsCfg_of_allowed (.inl hopen))
    have hend := step_csEnd_of_closed (s := (s.setSched (.unit .cs :: ts)).setCsCfg c) rfl hc hopen hrst
      hready hinp
    exact (run_succ_of_step hdrive 1).trans (run_succ_of_step hend 0)

end Sys2Proof.Machine
end

section
/-! The streams and the turns of the block (spec/20_memory.md): the order of the units' turns (R60), what each
event appends (R52), a transaction run to its END in any state (R61), a unit that waits (R54), and the
caller's handling of the streams (R54, R56, R199). -/

namespace Sys2Proof.Machine

/-! ## Turns of different units commute -/

theorem andThen_assoc (o : Outcome) (f g : State → Outcome) :
    andThen (andThen o f) g = andThen o fun s => andThen (f s) g := by
  cases o <;> rfl

/-- Where any two symbols may change places, the order of the whole sequence does not matter. -/
theorem feed_perm {α : Type} {f : α → State → Outcome}
    (hcomm : ∀ v w s, andThen (f v s) (f w) = andThen (f w s) (f v)) {xs ys : List α}
    (hperm : xs.Perm ys) (s : State) : feed f xs s = feed f ys s := by
  induction hperm generalizing s with
  | nil => rfl
  | cons v _ ih => simp only [feed_cons, funext ih]
  | swap v w vs =>
    calc feed f (w :: v :: vs) s
        = andThen (andThen (f w s) (f v)) (feed f vs) := (andThen_assoc _ _ _).symm
      _ = andThen (andThen (f v s) (f w)) (feed f vs) := by rw [hcomm]
      _ = feed f (v :: w :: vs) s := andThen_assoc _ _ _
  | trans _ _ ih₁ ih₂ => exact (ih₁ s).trans (ih₂ s)

/-- CS's turn passes through every update that leaves CS and its configuration alone. -/
theorem turnOutcome_cs_update (f : State → State) (s : State)
    (hcs : ∀ s, (f s).cs = s.cs := by exact fun _ => rfl)
    (hcfg : ∀ s, (f s).csCfg = s.csCfg := by exact fun _ => rfl)
    (hset : ∀ s l, (f s).setCs l = f (s.setCs l) := by exact fun _ _ => rfl) :
    turnOutcome .cs (f s) = andThen (turnOutcome .cs s) fun t => .next (f t) := by
  rw [turnOutcome_cs, turnOutcome_cs, hcs, hcfg]
  cases csTurn s.csCfg s.cs with
  | none => rfl
  | some l => exact congrArg _ (hset s l)

/-- CD's turn passes through every update that leaves CD and its configuration alone. -/
theorem turnOutcome_cd_update (f : State → State) (s : State)
    (hcd : ∀ s, (f s).cd = s.cd := by exact fun _ => rfl)
    (hcfg : ∀ s, (f s).cdCfg = s.cdCfg := by exact fun _ => rfl)
    (hset : ∀ s l, (f s).setCd l = f (s.setCd l) := by exact fun _ _ => rfl) :
    turnOutcome .cd (f s) = andThen (turnOutcome .cd s) fun t => .next (f t) := by
  rw [turnOutcome_cd, turnOutcome_cd, hcd, hcfg]
  cases cdTurn s.cdCfg s.cd with
  | none => rfl
  | some l => exact congrArg _ (hset s l)

/-- A unit's turn neither reads nor writes the schedule. -/
theorem turnOutcome_setSched (p : Port) (s : State) (ts : List Turn) :
    turnOutcome p (s.setSched ts) = andThen (turnOutcome p s) fun t => .next (t.setSched ts) := by
  cases p with
  | bs =>
    rw [turnOutcome_bs, turnOutcome_bs]
    rfl
  | bd =>
    rw [turnOutcome_bd, turnOutcome_bd]
    rfl
  | cs => exact turnOutcome_cs_update (·.setSched ts) s
  | cd => exact turnOutcome_cd_update (·.setSched ts) s

theorem turnOutcome_bs_comm (q : Port) (s : State) :
    andThen (turnOutcome .bs s) (turnOutcome q) = andThen (turnOutcome q s) (turnOutcome .bs) := by
  have hbs : turnOutcome .bs = fun s => .next (s.setBs (bsTurn s.bs)) := funext turnOutcome_bs
  cases q with
  | bs => rfl
  | bd =>
    rw [hbs, turnOutcome_bd s]
    exact turnOutcome_bd _
  | cs => exact hbs ▸ turnOutcome_cs_update (fun s => s.setBs (bsTurn s.bs)) s
  | cd => exact hbs ▸ turnOutcome_cd_update (fun s => s.setBs (bsTurn s.bs)) s

theorem turnOutcome_bd_comm (q : Port) (s : State) :
    andThen (turnOutcome .bd s) (turnOutcome q) = andThen (turnOutcome q s) (turnOutcome .bd) := by
  have hbd : turnOutcome .bd = fun s => .next (s.setBd (bdTurn s.bd)) := funext turnOutcome_bd
  cases q with
  | bs => exact (turnOutcome_bs_comm .bd s).symm
  | bd => rfl
  | cs => exact hbd ▸ turnOutcome_cs_update (fun s => s.setBd (bdTurn s.bd)) s
  | cd => exact hbd ▸ turnOutcome_cd_update (fun s => s.setBd (bdTurn s.bd)) s

/-- The two character units refuse for the same reason, so which of them refuses first does not show. -/
theorem turnOutcome_cs_cd_comm (s : State) :
    andThen (turnOutcome .cs s) (turnOutcome .cd) = andThen (turnOutcome .cd s) (turnOutcome .cs) := by
  rw [turnOutcome_cs, turnOutcome_cd]
  cases hcs : csTurn s.csCfg s.cs <;> cases hcd : cdTurn s.cdCfg s.cd <;>
    simp [turnOutcome_cs, turnOutcome_cd, hcs, hcd, State.setCs, State.setCd]

theorem turnOutcome_comm (p q : Port) (s : State) :
    andThen (turnOutcome p s) (turnOutcome q) = andThen (turnOutcome q s) (turnOutcome p) := by
  cases p with
  | bs => exact turnOutcome_bs_comm q s
  | bd => exact turnOutcome_bd_comm q s
  | cs =>
    cases q with
    | bs => exact (turnOutcome_bs_comm .cs s).symm
    | bd => exact (turnOutcome_bd_comm .cs s).symm
    | cs => rfl
    | cd => exact turnOutcome_cs_cd_comm s
  | cd =>
    cases q with
    | bs => exact (turnOutcome_bs_comm .cd s).symm
    | bd => exact (turnOutcome_bd_comm .cd s).symm
    | cs => exact (turnOutcome_cs_cd_comm s).symm
    | cd => rfl

theorem run_succ_of_fault {M : Host.Core} {s : M.State} {r : M.Fault} (h : M.step s = .fault r) (k : Nat) :
    M.run (k + 1) s = .fault r := by
  rw [Host.Core.run, h]

theorem run_succ_of_refused {M : Host.Core} {s : M.State} {r : M.Refusal} (h : M.step s = .refused r)
    (k : Nat) : M.run (k + 1) s = .refused r := by
  rw [Host.Core.run, h]

/-- The host's run of this machine, with the machine's own outcome as its type, so that runs can be
sequenced. -/
def runSteps (k : Nat) (s : State) : Outcome := Host.Core.run Sys2Proof.core k s

theorem runSteps_succ (k : Nat) (s : State) : runSteps (k + 1) s = andThen (step s) (runSteps k) := by
  cases h : step s with
  | next t => exact run_succ_of_step h k
  | fault r => exact run_succ_of_fault h k
  | refused r => exact run_succ_of_refused h k

/-- Running scheduled unit turns is taking them in order, the turns behind them left on the schedule. -/
theorem runSteps_units (ps : List Port) (ts : List Turn) (s : State) :
    runSteps ps.length (s.setSched (ps.map .unit ++ ts)) = feed turnOutcome ps (s.setSched ts) := by
  induction ps generalizing s with
  | nil => rfl
  | cons p ps ih =>
    have hstep : step (s.setSched ((p :: ps).map .unit ++ ts)) =
        turnOutcome p (s.setSched (ps.map .unit ++ ts)) := step_of_unit rfl
    rw [List.length_cons, runSteps_succ, hstep, feed_cons, turnOutcome_setSched, turnOutcome_setSched,
      andThen_assoc, andThen_assoc]
    exact congrArg (andThen _) (funext ih)

/-- Settles O33: a run of unit turns feeds the turns one after the other, and any two of them commute. -/
theorem interleavingDoesNotMatter : Obligations.InterleavingDoesNotMatter := by
  intro ps qs ts s hperm
  calc runSteps ps.length (s.setSched (ps.map .unit ++ ts))
      = feed turnOutcome ps (s.setSched ts) := runSteps_units ps ts s
    _ = feed turnOutcome qs (s.setSched ts) := feed_perm turnOutcome_comm hperm _
    _ = runSteps qs.length (s.setSched (qs.map .unit ++ ts)) := (runSteps_units qs ts s).symm

/-! ## How many output events a step appends -/

theorem bsSymReaction_outs (v : Bit) (r : BsRegs) :
    ∃ vs : BitSequence, (bsSymReaction v r).outs = vs.map .out ∧ 1 ≤ vs.length ∧ vs.length ≤ 2 := by
  simp only [bsSymReaction]
  split
  · split
    · exact ⟨[1, 0], rfl, by decide⟩
    · exact ⟨[1], rfl, by decide⟩
  · exact ⟨[0], rfl, by decide⟩

theorem bdSymReaction_outs (v : Bit) (r : BdRegs) :
    ∃ vs : BitSequence, (bdSymReaction v r).outs = vs.map .out ∧ vs.length ≤ 1 := by
  simp only [bdSymReaction]
  split
  · split
    · split <;> exact ⟨[], rfl, by decide⟩
    · split
      · exact ⟨[1], rfl, by decide⟩
      · exact ⟨[0], rfl, by decide⟩
  · exact ⟨[], rfl, by decide⟩

theorem bdEndReaction_outs (r : BdRegs) : ∃ e, (bdEndReaction r).outs = [e] ∧ ∀ v, e ≠ .out v := by
  simp only [bdEndReaction]
  split
  · exact ⟨_, rfl, nofun⟩
  · split <;> exact ⟨_, rfl, nofun⟩

theorem leadingFlag_length_le (c : CharCfg) (r : CsRegs) : (leadingFlag c r).length ≤ 1 := by
  simp only [leadingFlag]
  split <;> simp

theorem escaped_length (c : CharCfg) (v : Byte) :
    1 ≤ (escaped c v).length ∧ (escaped c v).length ≤ 2 := by
  simp only [escaped]
  split <;> simp

/-- A leading FLAG in front of what is emitted anyway adds at most one symbol. -/
theorem leadingFlag_append_length {c : CharCfg} {n : Nat} {vs : ByteSequence} (r : CsRegs)
    (hpos : 1 ≤ vs.length) (hle : vs.length ≤ n) :
    1 ≤ (leadingFlag c r ++ vs).length ∧ (leadingFlag c r ++ vs).length ≤ n + 1 := by
  have hflag := leadingFlag_length_le c r
  rw [List.length_append]
  omega

theorem cdSymReaction_outs (c : CharCfg) (v : Byte) (r : CdRegs) :
    ∃ vs : ByteSequence, (cdSymReaction c v r).outs = vs.map .out ∧ vs.length ≤ 1 := by
  simp only [cdSymReaction]
  split
  · cases r.st with
    | awaitFlag =>
      dsimp only
      split <;> exact ⟨[], rfl, by decide⟩
    | inFrame =>
      dsimp only
      split
      · exact ⟨[], rfl, by decide⟩
      · split
        · exact ⟨[], rfl, by decide⟩
        · exact ⟨[v], rfl, Nat.le_refl 1⟩
    | escapeNext => exact ⟨[v], rfl, Nat.le_refl 1⟩
    | done => exact ⟨[], rfl, by decide⟩
  · exact ⟨[], rfl, by decide⟩

theorem cdEndReaction_outs (r : CdRegs) : ∃ e, (cdEndReaction r).outs = [e] ∧ ∀ v, e ≠ .out v := by
  obtain ⟨st, idx, err, eoff, lastflag⟩ := r
  cases err with
  | none => cases st <;> exact ⟨_, rfl, nofun⟩
  | mf => exact ⟨_, rfl, nofun⟩
  | pv => cases lastflag <;> exact ⟨_, rfl, nofun⟩

/-- Settles O26: each event answers by the equation of its `exec`, and appends what its reaction emits. -/
theorem outputEventsPerStepAreBounded : Obligations.OutputEventsPerStepAreBounded := by
  intro s
  refine ⟨fun v => ?bsSym, ⟨_, exec_bsEnd s, rfl⟩, fun v => ?bdSym, ?bdEnd,
    fun hcfg => ⟨fun v => ?csSym, ?csEnd⟩, fun hcfg => ⟨fun v => ?cdSym, ?cdEnd⟩⟩
  case bsSym =>
    obtain ⟨vs, houts, hlen⟩ := bsSymReaction_outs v s.bs.regs
    exact ⟨_, vs, exec_bsSym v s, congrArg (s.bs.out ++ ·) houts, hlen⟩
  case bdSym =>
    obtain ⟨vs, houts, hlen⟩ := bdSymReaction_outs v s.bd.regs
    exact ⟨_, vs, exec_bdSym v s, congrArg (s.bd.out ++ ·) houts, hlen⟩
  case bdEnd =>
    obtain ⟨e, houts, hterm⟩ := bdEndReaction_outs s.bd.regs
    exact ⟨_, e, exec_bdEnd s, congrArg (s.bd.out ++ ·) houts, hterm⟩
  case csSym =>
    obtain ⟨hpos, hle⟩ := escaped_length s.csCfg v
    exact ⟨_, _, exec_csSym ((CharCfg_wf_iff _).2 hcfg) v, rfl,
      leadingFlag_append_length s.cs.regs hpos hle⟩
  case csEnd =>
    exact ⟨_, leadingFlag s.csCfg s.cs.regs ++ [s.csCfg.flag], exec_csEnd ((CharCfg_wf_iff _).2 hcfg),
      (List.append_assoc _ _ _).symm, leadingFlag_append_length s.cs.regs (Nat.le_refl 1) (Nat.le_refl 1)⟩
  case cdSym =>
    obtain ⟨vs, houts, hlen⟩ := cdSymReaction_outs s.cdCfg v s.cd.regs
    exact ⟨_, vs, exec_cdSym ((CharCfg_wf_iff _).2 hcfg) v, congrArg (s.cd.out ++ ·) houts, hlen⟩
  case cdEnd =>
    obtain ⟨e, houts, hterm⟩ := cdEndReaction_outs s.cd.regs
    exact ⟨_, e, exec_cdEnd ((CharCfg_wf_iff _).2 hcfg), congrArg (s.cd.out ++ ·) houts, hterm⟩

/-! ## A transaction runs to its END in every state -/

/-- A unit whose SYM and END are reactions of its own lane, END's with the reset registers: from any lane a
transaction only appends output and leaves the reset registers. -/
theorem transact_completes {ρ β α : Type} {put : Lane ρ β α → State} {sym : α → State → Outcome}
    {fin : State → Outcome} {symReaction : α → ρ → Reaction ρ α} {endReaction : ρ → Reaction ρ α} {init : ρ}
    (hsym : ∀ v l, sym v (put l) = .next (put (l.react (symReaction v l.regs))))
    (hfin : ∀ l, fin (put l) = .next (put (l.react (endReaction l.regs))))
    (hinit : ∀ r, (endReaction r).regs = init) (xs : List α) (l : Lane ρ β α) :
    ∃ es, transact sym fin xs (put l) = .next (put { l with regs := init, out := l.out ++ es }) := by
  induction xs generalizing l with
  | nil => exact ⟨(endReaction l.regs).outs, by simp [transact, hfin, Lane.react, hinit]⟩
  | cons v vs ih =>
    obtain ⟨es, hes⟩ := ih (l.react (symReaction v l.regs))
    exact ⟨(symReaction v l.regs).outs ++ es, by simpa [transact, hsym, Lane.react] using hes⟩

/-- Settles O38: each unit's events are reactions of its own lane, and every END writes the reset
registers. -/
theorem transactionsCompleteInEveryState : Obligations.TransactionsCompleteInEveryState := by
  intro s
  refine ⟨fun x => ?bs, fun y => ?bd, fun hcfg x => ?cs, fun hcfg y => ?cd⟩
  case bs =>
    exact transact_completes (put := s.setBs) (fun v l => exec_bsSym v (s.setBs l))
      (fun l => exec_bsEnd (s.setBs l)) (fun _ => bsEndReaction_regs) x s.bs
  case bd =>
    exact transact_completes (put := s.setBd) (fun v l => exec_bdSym v (s.setBd l))
      (fun l => exec_bdEnd (s.setBd l)) bdEndReaction_regs y s.bd
  case cs =>
    have hwf (l) : (s.setCs l).csCfg.wf = true := (CharCfg_wf_iff _).2 hcfg
    exact transact_completes (put := s.setCs) (symReaction := csSymReaction s.csCfg)
      (fun v l => exec_csSym (hwf l) v) (fun l => exec_csEnd (hwf l)) (csEndReaction_regs s.csCfg) x s.cs
  case cd =>
    have hwf (l) : (s.setCd l).cdCfg.wf = true := (CharCfg_wf_iff _).2 hcfg
    exact transact_completes (put := s.setCd) (symReaction := cdSymReaction s.cdCfg)
      (fun v l => exec_cdSym (hwf l) v) (fun l => exec_cdEnd (hwf l)) cdEndReaction_regs y s.cd

/-! ## A unit that waits -/

/-- A unit's turn with no event to take only comes off the schedule. -/
theorem step_of_fetchEvent_none {s : State} {p : Port} {ts : List Turn} (hs : s.sched = .unit p :: ts)
    (hf : fetchEvent p (s.setSched ts) = none) : step s = .next (s.setSched ts) := by
  rw [step_of_unit hs]
  simp [turnOutcome, unitTurn, hf]

/-- Settles O11: each of the three reasons is one for which the unit fetches nothing. -/
theorem unitWaitsWithoutChange : Obligations.UnitWaitsWithoutChange := by
  intro s ts
  refine ⟨?bs, ?bd, ?cs, ?cd, step_idle⟩ <;> intro hs hwait <;> refine step_of_fetchEvent_none hs ?_ <;>
    exact Option.map_eq_none_iff.2 (Lane.fetch_eq_none.2 hwait)

/-! ## The caller's handling of the streams -/

theorem connect_bits_of_forward {s : State} {e : OutEvent Bit} {es : List (OutEvent Bit)} {i : InEvent Bit}
    (hout : s.bs.out = e :: es) (hi : forwardEvent e = some i) : connect .bits s =
      .next ((s.setBs { s.bs with out := es }).setBd (s.bd.deliver (encodeBitEvent i))) := by
  simp [connect, hout, hi, Lane.take]

theorem connect_bytes_of_forward {s : State} {e : OutEvent Byte} {es : List (OutEvent Byte)}
    {i : InEvent Byte} (hout : s.cs.out = e :: es) (hi : forwardEvent e = some i) : connect .bytes s =
      .next ((s.setCs { s.cs with out := es }).setCd (s.cd.deliver (encodeByteEvent i))) := by
  simp [connect, hout, hi, Lane.take]

theorem connect_bits_of_abort {s : State} {k : ErrKind} {off : Nat} {es : List (OutEvent Bit)}
    (hout : s.bs.out = .abort k off :: es) : connect .bits s = .fault .abortFromStuffer := by
  simp [connect, hout, forwardEvent]

theorem connect_bytes_of_abort {s : State} {k : ErrKind} {off : Nat} {es : List (OutEvent Byte)}
    (hout : s.cs.out = .abort k off :: es) : connect .bytes s = .fault .abortFromStuffer := by
  simp [connect, hout, forwardEvent]

/-- Settles O13: each turn of the caller is the one update it names; a connection is decided by the oldest
output event. -/
theorem callerMovesStreamsInOrder : Obligations.CallerMovesStreamsInOrder := by
  intro s ts
  refine ⟨fun w hs => step_of_turn hs, fun w hs => step_of_turn hs, fun w hs => step_of_turn hs,
    fun w hs => step_of_turn hs, fun hs => step_of_turn hs, fun hs => step_of_turn hs,
    fun hs => step_of_turn hs, fun hs => step_of_turn hs,
    fun v es hs hout => ?bitsOut, fun es hs hout => ?bitsDone, fun k off es hs hout => ?bitsAbort,
    fun v es hs hout => ?bytesOut, fun es hs hout => ?bytesDone, fun k off es hs hout => ?bytesAbort,
    fun b hs => step_of_turn hs, fun b hs => step_of_turn hs, fun b hs => step_of_turn hs,
    fun b hs => step_of_turn hs⟩ <;> refine (step_of_turn hs).trans ?_
  case bitsOut => exact connect_bits_of_forward (s := s.setSched ts) hout rfl
  case bitsDone => exact connect_bits_of_forward (s := s.setSched ts) hout rfl
  case bitsAbort => exact connect_bits_of_abort (s := s.setSched ts) hout
  case bytesOut => exact connect_bytes_of_forward (s := s.setSched ts) hout rfl
  case bytesDone => exact connect_bytes_of_forward (s := s.setSched ts) hout rfl
  case bytesAbort => exact connect_bytes_of_abort (s := s.setSched ts) hout

end Sys2Proof.Machine
end

section
/-! The encodings (spec/30_encoding.md): the deciding bit of an input beat (R71 to R73, R76), transactions as
beats and as events (R86), output beats (R75, R80), the text of calls (R85), and the beats a unit takes from its
stream (R70, R74, R86). -/

namespace Sys2Proof.Machine

/-! ## The deciding bit of a beat -/

theorem extractLsb'_one_eq_zero_iff {n : Nat} (w : BitVec n) (i : Nat) :
    w.extractLsb' i 1 = 0#1 ↔ w.getLsbD i = false := by
  rw [BitVec.getLsbD_eq_extractLsb']
  obtain h | h := eq_zero_or_one (w.extractLsb' i 1) <;> simp [h]

theorem decodeBitBeat_of_clear {w : BitBeat} (h : w.getLsbD 1 = false) :
    decodeBitBeat w = .sym (w.setWidth 1) := by
  rw [decodeBitBeat, bitEndField, if_pos ((extractLsb'_one_eq_zero_iff w 1).2 h), bitDataField,
    BitVec.setWidth_eq_extractLsb' (by decide)]

theorem decodeBitBeat_of_set {w : BitBeat} (h : w.getLsbD 1 = true) : decodeBitBeat w = .fin := by
  simp [decodeBitBeat, bitEndField, extractLsb'_one_eq_zero_iff, h]

theorem decodeByteBeat_of_clear {w : ByteBeat} (h : w.getLsbD 8 = false) :
    decodeByteBeat w = .sym (w.setWidth 8) := by
  rw [decodeByteBeat, byteEndField, if_pos ((extractLsb'_one_eq_zero_iff w 8).2 h), byteDataField,
    BitVec.setWidth_eq_extractLsb' (by decide)]

theorem decodeByteBeat_of_set {w : ByteBeat} (h : w.getLsbD 8 = true) : decodeByteBeat w = .fin := by
  simp [decodeByteBeat, byteEndField, extractLsb'_one_eq_zero_iff, h]

/-- Settles O1: each word is one concrete beat, or too wide for its port. -/
theorem wordsOfTheSpecDecode : Obligations.WordsOfTheSpecDecode := by
  unfold Obligations.WordsOfTheSpecDecode
  decide

/-- Settles O2, from the two readings of each beat format. -/
theorem everyBeatIsExactlyOneEvent : Obligations.EveryBeatIsExactlyOneEvent := by
  refine ⟨fun w => ⟨fun h => ?bitSym, fun h => ?bitEnd⟩, fun w => ⟨fun h => ?byteSym, fun h => ?byteEnd⟩⟩
  case bitSym => simp [decodeBeat, decodeBitBeat_of_clear h]
  case bitEnd => simp [decodeBeat, decodeBitBeat_of_set h]
  case byteSym => simp [decodeBeat, decodeByteBeat_of_clear h]
  case byteEnd => simp [decodeBeat, decodeByteBeat_of_set h]

/-- Settles O3: the mask leaves the one bit that chooses the event. -/
theorem eventTableRowsSelectTheirEvents : Obligations.EventTableRowsSelectTheirEvents := by
  refine ⟨fun w => ?bit, fun w => ?byte⟩
  case bit =>
    have hmask : w &&& 0b10 = if w.getLsbD 1 then 0b10 else 0b00 := BitVec.and_twoPow w 1
    rw [hmask]
    cases h : w.getLsbD 1 with
    | false => simp [decodeBeat, decodeBitBeat_of_clear h]
    | true => simp [decodeBeat, decodeBitBeat_of_set h]
  case byte =>
    have hmask : w &&& 0x100 = if w.getLsbD 8 then 0x100 else 0x000 := BitVec.and_twoPow w 8
    rw [hmask]
    cases h : w.getLsbD 8 with
    | false => simp [decodeBeat, decodeByteBeat_of_clear h]
    | true => simp [decodeBeat, decodeByteBeat_of_set h]

/-! ## Transactions as beats and as events -/

/-- The beats `sym v` and `fin` stand on port `p` for the events `symEvent v` and `finEvent` (R71 to R73). -/
structure Codes {α : Type} (p : Port) (sym : α → PortBeat) (fin : PortBeat) (symEvent : α → Instr)
    (finEvent : Instr) : Prop where
  /-- A symbol's beat is on the port. -/
  sym_port : ∀ v, (sym v).port = p
  /-- A symbol's beat ends no transaction. -/
  sym_isEnd : ∀ v, (sym v).isEnd = false
  /-- A symbol's beat is its event. -/
  sym_decode : ∀ v, decodeBeat (sym v) = symEvent v
  /-- The last beat is on the port. -/
  fin_port : fin.port = p
  /-- The last beat ends the transaction. -/
  fin_isEnd : fin.isEnd = true
  /-- The last beat is the port's `END`. -/
  fin_decode : decodeBeat fin = finEvent

theorem codes_bs :
    Codes .bs (fun v => .bs (encodeBitEvent (.sym v))) (.bs (encodeBitEvent .fin)) .bsSym .bsEnd :=
  ⟨fun _ => rfl, fun v => by simp [PortBeat.isEnd], fun v => by simp [decodeBeat], rfl, rfl, rfl⟩

theorem codes_bd :
    Codes .bd (fun v => .bd (encodeBitEvent (.sym v))) (.bd (encodeBitEvent .fin)) .bdSym .bdEnd :=
  ⟨fun _ => rfl, fun v => by simp [PortBeat.isEnd], fun v => by simp [decodeBeat], rfl, rfl, rfl⟩

theorem codes_cs :
    Codes .cs (fun v => .cs (encodeByteEvent (.sym v))) (.cs (encodeByteEvent .fin)) .csSym .csEnd :=
  ⟨fun _ => rfl, fun v => by simp [PortBeat.isEnd], fun v => by simp [decodeBeat], rfl, rfl, rfl⟩

theorem codes_cd :
    Codes .cd (fun v => .cd (encodeByteEvent (.sym v))) (.cd (encodeByteEvent .fin)) .cdSym .cdEnd :=
  ⟨fun _ => rfl, fun v => by simp [PortBeat.isEnd], fun v => by simp [decodeBeat], rfl, rfl, rfl⟩

theorem encode_bitStuff (x : BitSequence) : encode (.bitStuff x) =
    x.map (fun v => .bs (encodeBitEvent (.sym v))) ++ [.bs (encodeBitEvent .fin)] := by
  simp [encode, bitBeats]
theorem encode_bitDestuff (y : BitSequence) : encode (.bitDestuff y) =
    y.map (fun v => .bd (encodeBitEvent (.sym v))) ++ [.bd (encodeBitEvent .fin)] := by
  simp [encode, bitBeats]
theorem encode_charStuff (x : ByteSequence) : encode (.charStuff x) =
    x.map (fun v => .cs (encodeByteEvent (.sym v))) ++ [.cs (encodeByteEvent .fin)] := by
  simp [encode, byteBeats]
theorem encode_charDestuff (y : ByteSequence) : encode (.charDestuff y) =
    y.map (fun v => .cd (encodeByteEvent (.sym v))) ++ [.cd (encodeByteEvent .fin)] := by
  simp [encode, byteBeats]

theorem transactionOf_bsSym (x : BitSequence) : transactionOf .bs (x.map .bsSym) = .bitStuff x := by
  simp [transactionOf, List.filterMap_map, Function.comp_def, Instr.bitOperand]
theorem transactionOf_bdSym (y : BitSequence) : transactionOf .bd (y.map .bdSym) = .bitDestuff y := by
  simp [transactionOf, List.filterMap_map, Function.comp_def, Instr.bitOperand]
theorem transactionOf_csSym (x : ByteSequence) : transactionOf .cs (x.map .csSym) = .charStuff x := by
  simp [transactionOf, List.filterMap_map, Function.comp_def, Instr.byteOperand]
theorem transactionOf_cdSym (y : ByteSequence) : transactionOf .cd (y.map .cdSym) = .charDestuff y := by
  simp [transactionOf, List.filterMap_map, Function.comp_def, Instr.byteOperand]

section
variable {α : Type} {p : Port} {sym : α → PortBeat} {fin : PortBeat} {symEvent : α → Instr} {finEvent : Instr}

/-- The symbols of a transaction are collected up to its END, and nothing behind it is read. -/
theorem Codes.collectSyms_beats (h : Codes p sym fin symEvent finEvent) (x : List α) (rest : List PortBeat) :
    collectSyms p (x.map sym ++ fin :: rest) = .ok (x.map symEvent, rest) := by
  induction x with
  | nil => simp [collectSyms, h.fin_port, h.fin_isEnd]
  | cons v x ih => simp [collectSyms, h.sym_port, h.sym_isEnd, h.sym_decode, ih]

/-- A transaction's beats have a first one, and it is on their port. -/
theorem Codes.head_port (h : Codes p sym fin symEvent finEvent) (x : List α) (rest : List PortBeat) :
    ∃ b bs, x.map sym ++ fin :: rest = b :: bs ∧ b.port = p := by
  cases x with
  | nil => exact ⟨fin, rest, rfl, h.fin_port⟩
  | cons v x => exact ⟨sym v, x.map sym ++ fin :: rest, rfl, h.sym_port v⟩

theorem Codes.decodeTransaction_beats (h : Codes p sym fin symEvent finEvent) (x : List α) (rest : List PortBeat) :
    decodeTransaction (x.map sym ++ [fin] ++ rest) = .ok (transactionOf p (x.map symEvent), rest) := by
  obtain ⟨b, bs, hbs, hb⟩ := h.head_port x rest
  have hsyms := h.collectSyms_beats x rest
  rw [List.append_assoc, List.singleton_append, hbs]
  rw [hbs] at hsyms
  simp [decodeTransaction, hb, hsyms]

theorem Codes.map_decodeBeat (h : Codes p sym fin symEvent finEvent) (x : List α) :
    (x.map sym ++ [fin]).map decodeBeat = x.map symEvent ++ [finEvent] := by
  simp [h.sym_decode, h.fin_decode]

end

/-- Settles O4: an event's one beat by its port's code; a transaction's beats by collecting its symbols up to the
END, where reading stops. -/
theorem everyInstructionReadsBackFromItsWords : Obligations.EveryInstructionReadsBackFromItsWords := by
  refine ⟨fun v => congrArg (fun i => [i]) (codes_bs.sym_decode v), rfl,
    fun v => congrArg (fun i => [i]) (codes_bd.sym_decode v), rfl,
    fun v => congrArg (fun i => [i]) (codes_cs.sym_decode v), rfl,
    fun v => congrArg (fun i => [i]) (codes_cd.sym_decode v), rfl,
    fun x rest => ?bitStuff, fun y rest => ?bitDestuff, fun x rest => ?charStuff, fun y rest => ?charDestuff⟩
  case bitStuff => rw [encode_bitStuff, codes_bs.decodeTransaction_beats, transactionOf_bsSym]
  case bitDestuff => rw [encode_bitDestuff, codes_bd.decodeTransaction_beats, transactionOf_bdSym]
  case charStuff => rw [encode_charStuff, codes_cs.decodeTransaction_beats, transactionOf_csSym]
  case charDestuff => rw [encode_charDestuff, codes_cd.decodeTransaction_beats, transactionOf_cdSym]

/-- A continuation that only goes on adds nothing. -/
theorem andThen_of_next {f : State → Outcome} (hf : ∀ t, f t = .next t) (o : Outcome) : andThen o f = o := by
  cases o with
  | next t => exact hf t
  | fault r => rfl
  | refused r => rfl

/-- A unit's events in a row, `END` last, are fed and closed as its transaction is. -/
theorem runEvents_expansion {α : Type} (symEvent : α → Instr) (finEvent : Instr) (x : List α) (s : State) :
    runEvents (x.map symEvent ++ [finEvent]) s = transact (fun v => exec (symEvent v)) (exec finEvent) x s := by
  have hlast : runEvents [finEvent] = exec finEvent :=
    funext fun t => andThen_of_next (fun _ => rfl) (exec finEvent t)
  rw [runEvents_append, runEvents_map fun _ _ => rfl, hlast, transact]

/-- Settles O5: the words by each port's code, the effect by running the symbols as they are fed. -/
theorem transactionIsItsExpansion : Obligations.TransactionIsItsExpansion := by
  refine ⟨fun x => ?bitStuff, fun y => ?bitDestuff, fun x => ?charStuff, fun y => ?charDestuff,
    fun x s => ?execBitStuff, fun y s => ?execBitDestuff, fun x s => ?execCharStuff, fun y s => ?execCharDestuff⟩
  case bitStuff => rw [encode_bitStuff, codes_bs.map_decodeBeat]
  case bitDestuff => rw [encode_bitDestuff, codes_bd.map_decodeBeat]
  case charStuff => rw [encode_charStuff, codes_cs.map_decodeBeat]
  case charDestuff => rw [encode_charDestuff, codes_cd.map_decodeBeat]
  case execBitStuff => exact (runEvents_expansion .bsSym .bsEnd x s).symm
  case execBitDestuff => exact (runEvents_expansion .bdSym .bdEnd y s).symm
  case execCharStuff => exact (runEvents_expansion .csSym .csEnd x s).symm
  case execCharDestuff => exact (runEvents_expansion .cdSym .cdEnd y s).symm

/-! ## Output beats -/

/-- Settles O6, clause by clause: the encoding of each event, and three packed beats. -/
theorem outputBeatFields : Obligations.OutputBeatFields :=
  ⟨fun _ _ => rfl, fun _ => rfl, fun _ _ => rfl, fun _ _ => rfl, rfl, rfl, rfl⟩

theorem decodeOut_encodeOut {n : Nat} (e : OutEvent (BitVec n)) : decodeOut (encodeOut e) = some e := by
  cases e with
  | out v => rfl
  | done => rfl
  | abort k off => cases k <;> rfl

/-- Only an `ABORT` has an offset that may be too wide. -/
theorem encodeOut_offset_lt_iff {n : Nat} (offw : Nat) (e : OutEvent (BitVec n)) :
    (encodeOut e).offset < 2 ^ offw ↔ e.fits offw = true := by
  cases e with
  | out v => simp [encodeOut, OutEvent.fits]
  | done => simp [encodeOut, OutEvent.fits]
  | abort k off => simp [encodeOut, OutEvent.fits]

/-- The four fields are read back from their places in the packed beat (R75). -/
theorem unpackOut_append {n offw : Nat} (t : BitVec 1) (st : BitVec 2) (o : BitVec offw) (d : BitVec n) :
    unpackOut offw (t ++ st ++ o ++ d) = { term := t, status := st, offset := o.toNat, data := d } := by
  have hterm : (t ++ st ++ o ++ d).extractLsb' (2 + offw + n) 1 = t := by
    rw [BitVec.extractLsb'_append_eq_of_le (by omega), BitVec.extractLsb'_append_eq_of_le (by omega),
      show 2 + offw + n - n - offw = 2 by omega, BitVec.extractLsb'_append_eq_left]
  have hstatus : (t ++ st ++ o ++ d).extractLsb' (offw + n) 2 = st := by
    rw [BitVec.extractLsb'_append_eq_of_le (by omega), BitVec.extractLsb'_append_eq_of_le (by omega),
      show offw + n - n - offw = 0 by omega, BitVec.extractLsb'_append_eq_right]
  have hoffset : (t ++ st ++ o ++ d).extractLsb' n offw = o := by
    rw [BitVec.extractLsb'_append_eq_of_le (le_refl n), Nat.sub_self, BitVec.extractLsb'_append_eq_right]
  simp only [unpackOut, hterm, hstatus, hoffset, BitVec.extractLsb'_append_eq_right]

/-- A beat whose offset fits is packed so that its fields read back. -/
theorem unpackOut_of_packOut {n offw : Nat} {b : OutBeat n} (h : b.offset < 2 ^ offw) :
    ∃ w, packOut offw b = some w ∧ unpackOut offw w = b := by
  refine ⟨_, if_pos h, ?_⟩
  rw [unpackOut_append, BitVec.toNat_ofNat, Nat.mod_eq_of_lt h]

/-- Settles O7: events by cases; packing by whether the offset fits. -/
theorem outputBeatsReadBack : Obligations.OutputBeatsReadBack := by
  refine ⟨fun n e => decodeOut_encodeOut e, fun n offw e h => ?fits, fun n offw e h => ?tooWide,
    fun n off d => rfl⟩
  case fits => exact unpackOut_of_packOut ((encodeOut_offset_lt_iff offw e).2 h)
  case tooWide => exact if_neg (mt (encodeOut_offset_lt_iff offw e).1 (by simp [h]))

/-! ## The text of calls -/

theorem afterText_append (p t : List Char) : afterText p (p ++ t) = some t := by
  induction p with
  | nil => rfl
  | cons c p ih => simp [afterText, ih]

theorem callArgument_callText (name argument : List Char) :
    callArgument name (callText name argument) = some argument := by
  have hopen : afterText (name ++ ['(', '"']) (callText name argument) = some (argument ++ ['"', ')']) := by
    rw [callText, List.append_assoc]
    exact afterText_append _ _
  have hclose : afterText [')', '"'] (argument ++ ['"', ')']).reverse = some argument.reverse := by
    rw [List.reverse_append]
    exact afterText_append _ _
  simp only [callArgument, hopen, hclose, List.reverse_reverse]

/-- Characters that stand for their symbols read back as the symbols. -/
theorem mapM_map_eq_some {α : Type} {read : Char → Option α} {write : α → Char}
    (h : ∀ v, read (write v) = some v) (x : List α) : (x.map write).mapM read = some x := by
  induction x with
  | nil => rfl
  | cons v x ih => simp [h, ih]

theorem charBit_bitChar (b : Bit) : charBit (bitChar b) = some b := by
  obtain rfl | rfl := eq_zero_or_one b <;> rfl

/-- The code of a byte's character is the byte: every number below 256 is the code of a character. -/
theorem byteChar_toNat (b : Byte) : (byteChar b).toNat = b.toNat := by
  have hvalid : b.toNat.isValidChar := .inl (b.isLt.trans (by decide))
  rw [byteChar, Char.toNat_ofNat, if_pos hvalid]

theorem charByte_byteChar (b : Byte) : charByte (byteChar b) = some b := by
  simp [charByte, byteChar_toNat, b.isLt]

/-- Settles O8: the argument is found between the quotation marks, no earlier name begins the text, and each
character reads back. -/
theorem callTextReadsBack : Obligations.CallTextReadsBack := by
  refine ⟨fun x => ⟨_, rfl, ?bitStuff⟩, fun y => ⟨_, rfl, ?bitDestuff⟩, fun x => ⟨_, rfl, ?charStuff⟩,
    fun y => ⟨_, rfl, ?charDestuff⟩⟩
  case bitStuff => simp [parseCall, callArgument_callText, mapM_map_eq_some charBit_bitChar]
  case bitDestuff =>
    have hBitStuff : callArgument nameBitStuff (callText nameBitDestuff (y.map bitChar)) = none := rfl
    simp [parseCall, hBitStuff, callArgument_callText, mapM_map_eq_some charBit_bitChar]
  case charStuff =>
    have hBitStuff : callArgument nameBitStuff (callText nameCharStuff (x.map byteChar)) = none := rfl
    have hBitDestuff : callArgument nameBitDestuff (callText nameCharStuff (x.map byteChar)) = none := rfl
    simp [parseCall, hBitStuff, hBitDestuff, callArgument_callText, mapM_map_eq_some charByte_byteChar]
  case charDestuff =>
    have hBitStuff : callArgument nameBitStuff (callText nameCharDestuff (y.map byteChar)) = none := rfl
    have hBitDestuff : callArgument nameBitDestuff (callText nameCharDestuff (y.map byteChar)) = none := rfl
    have hCharStuff : callArgument nameCharStuff (callText nameCharDestuff (y.map byteChar)) = none := rfl
    simp [parseCall, hBitStuff, hBitDestuff, hCharStuff, callArgument_callText, mapM_map_eq_some charByte_byteChar]

/-! ## A beat placed before a unit -/

theorem step_placed_bs (s : State) (w : BitBeat) : step (s.withFetchBeat (.bs w)) =
    exec (decodeBeat (.bs w)) (s.setBs { s.bs with rst := false, ready := true }) :=
  step_of_fetchEvent rfl rfl
theorem step_placed_bd (s : State) (w : BitBeat) : step (s.withFetchBeat (.bd w)) =
    exec (decodeBeat (.bd w)) (s.setBd { s.bd with rst := false, ready := true }) :=
  step_of_fetchEvent rfl rfl
theorem step_placed_cs (s : State) (w : ByteBeat) : step (s.withFetchBeat (.cs w)) =
    exec (decodeBeat (.cs w)) (s.setCs { s.cs with rst := false, ready := true }) :=
  step_of_fetchEvent rfl rfl
theorem step_placed_cd (s : State) (w : ByteBeat) : step (s.withFetchBeat (.cd w)) =
    exec (decodeBeat (.cd w)) (s.setCd { s.cd with rst := false, ready := true }) :=
  step_of_fetchEvent rfl rfl

/-- A table word of up to 8 bits is a beat of BS, a wider one a beat of CS (log 4). -/
theorem tableBeat_eq_some {nbits w : Nat} {b : PortBeat} (h : tableBeat nbits w = some b) :
    (nbits ≤ 8 ∧ ∃ v, b = .bs v) ∨ (¬ nbits ≤ 8 ∧ ∃ v, b = .cs v) := by
  unfold tableBeat at h
  split at h
  · cases h
  · split at h
    · obtain ⟨-, ⟨⟩⟩ := Option.ite_none_right_eq_some.1 h
      exact .inl ⟨‹_›, _, rfl⟩
    · obtain ⟨-, h⟩ := Option.ite_none_right_eq_some.1 h
      obtain ⟨-, ⟨⟩⟩ := Option.ite_none_right_eq_some.1 h
      exact .inr ⟨‹_›, _, rfl⟩

theorem withFetchWord_of_tableBeat {nbits w : Nat} {b : PortBeat} (h : tableBeat nbits w = some b) (s : State) :
    s.withFetchWord nbits w = s.withFetchBeat b := by
  simp [State.withFetchWord, placeWord, h, State.withFetchBeat]

/-- Settles O10: the placed beat is the one fetched; a table word is placed as the beat it is. -/
theorem placedBeatIsTheNextEvent : Obligations.PlacedBeatIsTheNextEvent := by
  refine fun s => ⟨step_placed_bs s, step_placed_bd s, step_placed_cs s, step_placed_cd s,
    fun nbits w i h => ?tableWord⟩
  obtain ⟨b, hb, rfl⟩ := Option.map_eq_some_iff.1 h
  rw [withFetchWord_of_tableBeat hb]
  obtain ⟨hle, v, rfl⟩ | ⟨hgt, v, rfl⟩ := tableBeat_eq_some hb
  · rw [if_pos hle]
    exact step_placed_bs s v
  · rw [if_neg hgt]
    exact step_placed_cs s v

/-- A one on top of `n` bits is bit `n`. -/
theorem getLsbD_one_append {n : Nat} (d : BitVec n) : (1#1 ++ d).getLsbD n = true := by
  rw [BitVec.getLsbD_append, if_neg (lt_irrefl n), Nat.sub_self]
  rfl

theorem decodeBitBeat_end (d : Bit) : decodeBitBeat (1#1 ++ d) = .fin :=
  decodeBitBeat_of_set (getLsbD_one_append d)

theorem decodeByteBeat_end (d : Byte) : decodeByteBeat (1#1 ++ d) = .fin :=
  decodeByteBeat_of_set (getLsbD_one_append d)

/-- Settles O12: whatever its data, an END beat is the event `END`. -/
theorem dataOfAnEndBeatIsIgnored : Obligations.DataOfAnEndBeatIsIgnored := by
  refine fun s => ⟨fun d d' => ?bs, fun d d' => ?bd, fun d d' => ?cs, fun d d' => ?cd⟩
  case bs => simp [step_placed_bs, decodeBeat, decodeBitBeat_end]
  case bd => simp [step_placed_bd, decodeBeat, decodeBitBeat_end]
  case cs => simp [step_placed_cs, decodeBeat, decodeByteBeat_end]
  case cd => simp [step_placed_cd, decodeBeat, decodeByteBeat_end]

/-! ## The beats of a transaction on a unit's stream -/

/-- A unit out of reset, its consumer ready, with these beats waiting. -/
def Lane.load {ρ β α : Type} (ws : List β) (l : Lane ρ β α) : Lane ρ β α :=
  { l with inp := ws, rst := false, ready := true }

theorem Lane.load_of_ready {ρ β α : Type} {l : Lane ρ β α} (hrst : l.rst = false) (hready : l.ready = true)
    (ws : List β) : l.load ws = { l with inp := ws } := by
  simp [Lane.load, hrst, hready]

theorem Lane.load_eq_self {ρ β α : Type} {l : Lane ρ β α} {ws : List β} (hrst : l.rst = false)
    (hready : l.ready = true) (hinp : l.inp = ws) : l.load ws = l := by
  rw [Lane.load_of_ready hrst hready, ← hinp]

theorem andThen_withDistinctCfg (c : CharCfg) (o : Outcome) (f : State → Outcome) :
    andThen (withDistinctCfg c o) f = withDistinctCfg c (andThen o f) := by
  simp only [withDistinctCfg]
  split <;> rfl

/-- The unit of port `p` runs its stream: with beats loaded, its turn is the meaning of the oldest one at the
state with the others loaded, and a symbol's meaning leaves the loaded beats alone. -/
structure RunsStream {α β : Type} (p : Port) (load : List β → State → State) (symBeat : α → β) (finBeat : β)
    (sym : α → State → Outcome) (fin : State → Outcome) : Prop where
  /-- The turn at a symbol's beat. -/
  turn_sym : ∀ v ws s, turnOutcome p (load (symBeat v :: ws) s) = sym v (load ws s)
  /-- The turn at the last beat. -/
  turn_fin : ∀ ws s, turnOutcome p (load (finBeat :: ws) s) = fin (load ws s)
  /-- A symbol's meaning leaves the loaded beats alone. -/
  sym_load : ∀ v ws s, sym v (load ws s) = andThen (sym v s) fun t => .next (load ws t)

theorem runsStream_bs : RunsStream .bs (fun ws s => s.setBs (s.bs.load ws)) (fun v => encodeBitEvent (.sym v))
    (encodeBitEvent .fin) execBsSym execBsEnd where
  turn_sym v ws s := congrArg (exec · (s.setBs (s.bs.load ws))) (codes_bs.sym_decode v)
  turn_fin ws s := congrArg (exec · (s.setBs (s.bs.load ws))) codes_bs.fin_decode
  sym_load _ _ _ := rfl

theorem runsStream_bd : RunsStream .bd (fun ws s => s.setBd (s.bd.load ws)) (fun v => encodeBitEvent (.sym v))
    (encodeBitEvent .fin) execBdSym execBdEnd where
  turn_sym v ws s := congrArg (exec · (s.setBd (s.bd.load ws))) (codes_bd.sym_decode v)
  turn_fin ws s := congrArg (exec · (s.setBd (s.bd.load ws))) codes_bd.fin_decode
  sym_load _ _ _ := rfl

theorem runsStream_cs : RunsStream .cs (fun ws s => s.setCs (s.cs.load ws)) (fun v => encodeByteEvent (.sym v))
    (encodeByteEvent .fin) execCsSym execCsEnd where
  turn_sym v ws s := congrArg (exec · (s.setCs (s.cs.load ws))) (codes_cs.sym_decode v)
  turn_fin ws s := congrArg (exec · (s.setCs (s.cs.load ws))) codes_cs.fin_decode
  sym_load v ws s := by
    simp only [execCsSym, andThen_withDistinctCfg]
    rfl

theorem runsStream_cd : RunsStream .cd (fun ws s => s.setCd (s.cd.load ws)) (fun v => encodeByteEvent (.sym v))
    (encodeByteEvent .fin) execCdSym execCdEnd where
  turn_sym v ws s := congrArg (exec · (s.setCd (s.cd.load ws))) (codes_cd.sym_decode v)
  turn_fin ws s := congrArg (exec · (s.setCd (s.cd.load ws))) codes_cd.fin_decode
  sym_load v ws s := by
    simp only [execCdSym, andThen_withDistinctCfg]
    rfl

section
variable {α β : Type} {p : Port} {load : List β → State → State} {symBeat : α → β} {finBeat : β}
  {sym : α → State → Outcome} {fin : State → Outcome}

/-- A turn for each beat of a transaction is the transaction. -/
theorem RunsStream.feed_turns (h : RunsStream p load symBeat finBeat sym fin) (x : List α) (rest : List β)
    (s : State) : feed turnOutcome (List.replicate (x.length + 1) p) (load (x.map symBeat ++ [finBeat] ++ rest) s) =
      transact sym fin x (load rest s) := by
  induction x generalizing s with
  | nil => exact (andThen_of_next (fun _ => rfl) _).trans (h.turn_fin rest s)
  | cons v x ih =>
    simp only [List.length_cons, List.map_cons, List.cons_append, List.replicate_succ (n := x.length + 1),
      feed_cons, h.turn_sym, transact, h.sym_load v, andThen_assoc, andThen_next]
    exact congrArg (andThen _) (funext ih)

/-- As many steps as a transaction has beats, on a unit's stream and with its turns scheduled, are the
transaction. -/
theorem RunsStream.runSteps_transact (h : RunsStream p load symBeat finBeat sym fin) {x : List α} {rest : List β}
    {s t : State} {ts : List Turn} (hsched : s.sched = List.replicate (x.length + 1) (.unit p) ++ ts)
    (hload : load (x.map symBeat ++ [finBeat] ++ rest) (s.setSched ts) = s.setSched ts)
    (hrest : load rest (s.setSched ts) = t) : runSteps (x.length + 1) s = transact sym fin x t := by
  have hturns := runSteps_units (List.replicate (x.length + 1) p) ts s
  rw [List.length_replicate, List.map_replicate, ← hsched] at hturns
  rw [← hrest, ← h.feed_turns, hload]
  exact hturns

end

/-- Settles O39: the scheduled turns take the transaction's beats one by one, and the events do not touch the
stream. -/
theorem stepsOfAUnitRunTheTransaction : Obligations.StepsOfAUnitRunTheTransaction := by
  refine fun s ts => ⟨fun x rest hrst hready hinp hs => ?bs, fun y rest hrst hready hinp hs => ?bd,
    fun x rest hrst hready hinp hs => ?cs, fun y rest hrst hready hinp hs => ?cd⟩
  case bs =>
    exact runsStream_bs.runSteps_transact hs (congrArg (s.setSched ts).setBs (Lane.load_eq_self hrst hready hinp))
      (congrArg (s.setSched ts).setBs (Lane.load_of_ready hrst hready rest))
  case bd =>
    exact runsStream_bd.runSteps_transact hs (congrArg (s.setSched ts).setBd (Lane.load_eq_self hrst hready hinp))
      (congrArg (s.setSched ts).setBd (Lane.load_of_ready hrst hready rest))
  case cs =>
    exact runsStream_cs.runSteps_transact hs (congrArg (s.setSched ts).setCs (Lane.load_eq_self hrst hready hinp))
      (congrArg (s.setSched ts).setCs (Lane.load_of_ready hrst hready rest))
  case cd =>
    exact runsStream_cd.runSteps_transact hs (congrArg (s.setSched ts).setCd (Lane.load_eq_self hrst hready hinp))
      (congrArg (s.setSched ts).setCd (Lane.load_of_ready hrst hready rest))

end Sys2Proof.Machine
end

section
/-! BS, the bit stuffer (spec/40_bit_stuffer.md R100 to R103): its reaction to each bit, the contract's recursion,
and that the events compute the contract. -/

namespace Sys2Proof.Machine

/-! ## The reaction to a bit (R101), case by case -/

theorem bsSymReaction_zero (r : BsRegs) : bsSymReaction 0#1 r = emit { cnt := 0 } [0] := rfl
theorem bsSymReaction_fifth_one {r : BsRegs} (h : r.cnt.toNat + 1 = 5) :
    bsSymReaction 1#1 r = emit { cnt := 0 } [1, 0] := if_pos h
theorem bsSymReaction_one {r : BsRegs} (h : r.cnt.toNat + 1 ≠ 5) :
    bsSymReaction 1#1 r = emit { cnt := storeRun (r.cnt.toNat + 1) } [1] := if_neg h

/-! ## The contract's recursion (R100), case by case -/

@[simp] theorem stuffBitsFrom_nil (c : Nat) : stuffBitsFrom [] c = [] := rfl
theorem stuffBitsFrom_zero (x : BitSequence) (c : Nat) :
    stuffBitsFrom (0#1 :: x) c = 0 :: stuffBitsFrom x 0 := rfl
theorem stuffBitsFrom_one (x : BitSequence) {c : Nat} (h : c + 1 < 5) :
    stuffBitsFrom (1#1 :: x) c = 1 :: stuffBitsFrom x (c + 1) := if_pos h
theorem stuffBitsFrom_fifth_one (x : BitSequence) {c : Nat} (h : ¬ c + 1 < 5) :
    stuffBitsFrom (1#1 :: x) c = 1 :: 0 :: stuffBitsFrom x 0 := if_neg h

/-! ## The events compute the contract (R103) -/

/-- One event is one unfolding of the contract's recursion, with `BS.cnt` as its counter. -/
theorem bsSymReaction_refines {r : BsRegs} (h : r.Legal) (v : Bit) : ∃ y : BitSequence,
    (bsSymReaction v r).outs = y.map .out ∧
    ∀ x, stuffBitsFrom (v :: x) r.cnt.toNat = y ++ stuffBitsFrom x (bsSymReaction v r).regs.cnt.toNat := by
  have hcnt : r.cnt.toNat ≤ 4 := h
  obtain rfl | rfl := eq_zero_or_one v
  · exact ⟨[0], rfl, fun x => stuffBitsFrom_zero x _⟩
  · by_cases hfifth : r.cnt.toNat + 1 = 5
    · rw [bsSymReaction_fifth_one hfifth]
      exact ⟨[1, 0], rfl, fun x => stuffBitsFrom_fifth_one x (by omega)⟩
    · rw [bsSymReaction_one hfifth, emit_regs, storeRun_toNat (by omega)]
      exact ⟨[1], rfl, fun x => stuffBitsFrom_one x (by omega)⟩

/-- The SYM events of `x` touch only the registers and the output of BS; what they emit is the contract's form
of `x`, and `BS.cnt` is the counter with which the contract goes on to any continuation. -/
theorem feed_bsSym_refines (x : BitSequence) {s : State} (h : s.bs.regs.Legal) : ∃ (r : BsRegs) (y : BitSequence),
    feed execBsSym x s = .next (s.setBs { s.bs with regs := r, out := s.bs.out ++ y.map .out }) ∧
    ∀ x', stuffBitsFrom (x ++ x') s.bs.regs.cnt.toNat = y ++ stuffBitsFrom x' r.cnt.toNat := by
  induction x generalizing s with
  | nil => exact ⟨s.bs.regs, [], by simp [State.setBs], fun _ => rfl⟩
  | cons v x ih =>
    obtain ⟨y₁, houts, hhead⟩ := bsSymReaction_refines h v
    obtain ⟨r, y₂, hfeed, htail⟩ := ih (s := s.setBs (s.bs.react (bsSymReaction v s.bs.regs)))
      (bsSymReaction_legal h v)
    refine ⟨r, y₁ ++ y₂, ?feed, fun x' => ?contract⟩
    case feed =>
      rw [feed_cons, execBsSym, andThen_next, hfeed]
      simp [State.setBs, Lane.react, houts]
    case contract =>
      rw [List.cons_append, hhead, List.append_assoc]
      exact congrArg (y₁ ++ ·) (htail x')

/-- `feed_bsSym_refines` from the reset registers, where the contract's counter is 0. -/
theorem feed_bsSym_of_reset (x : BitSequence) {s : State} (h : s.bs.regs = .reset) :
    ∃ (r : BsRegs) (y : BitSequence),
      feed execBsSym x s = .next (s.setBs { s.bs with regs := r, out := s.bs.out ++ y.map .out }) ∧
      ∀ x', bitStuff (x ++ x') = y ++ stuffBitsFrom x' r.cnt.toNat := by
  have href := feed_bsSym_refines x (s := s) (h ▸ BsRegs.reset_legal)
  rwa [h] at href

theorem exec_bitStuff (x : BitSequence) (s : State) :
    exec (.bitStuff x) s = andThen (feed execBsSym x s) execBsEnd := rfl

/-- Settles O34: the SYM events unfold the contract's recursion from counter 0, and END appends only DONE. -/
theorem bitStuffTransactionIsTheContract : Obligations.BitStuffTransactionIsTheContract := by
  refine ⟨fun x s hreset => ?transaction, fun x s hreset => ?events⟩
  case transaction =>
    obtain ⟨r, y, hfeed, hcontract⟩ := feed_bsSym_of_reset x hreset
    have hy : bitStuff x = y := by simpa using hcontract []
    rw [exec_bitStuff, hfeed, hy, andThen_next]
    simp [execBsEnd, bsEndReaction, State.setBs, Lane.react, hreset]
  case events =>
    obtain ⟨r, y, hfeed, hcontract⟩ := feed_bsSym_of_reset x hreset
    exact ⟨_, y, (runEvents_map (fun _ _ => rfl) x s).trans hfeed, rfl, hcontract⟩

/-! ## The two events -/

theorem exec_bsSym_of_reaction {v : Bit} {s : State} {a : Reaction BsRegs Bit}
    (h : bsSymReaction v s.bs.regs = a) : exec (.bsSym v) s = .next (s.setBs (s.bs.react a)) := by
  rw [exec_bsSym, h]

/-- Settles O17, from the reaction's three cases. -/
theorem bsSymCopiesAndStuffs : Obligations.BsSymCopiesAndStuffs := by
  refine ⟨codes_bs.sym_decode, fun s => ?zero, fun s hfifth => ?fifthOne, fun s hbelow => ?one,
    fun v s => ⟨_, exec_bsSym v s⟩⟩
  case zero => exact exec_bsSym_of_reaction (bsSymReaction_zero s.bs.regs)
  case fifthOne => exact exec_bsSym_of_reaction (bsSymReaction_fifth_one hfifth)
  case one => exact ⟨_, storeRun_toNat (by omega), exec_bsSym_of_reaction (bsSymReaction_one hbelow.ne)⟩

/-- Settles O18: an END beat's data is not read, and the reaction to END reads no register. -/
theorem bsEndClosesTheTransaction : Obligations.BsEndClosesTheTransaction :=
  ⟨fun d => by simp [decodeBeat, decodeBitBeat_end], exec_bsEnd⟩

end Sys2Proof.Machine
end

section
/-! BD, the bit destuffer (spec/41_bit_destuffer.md R120 to R123): its reactions, the contract's recursion, and that
the events compute the contract. -/

namespace Sys2Proof.Machine

/-! ## The reactions (R121, R122), case by case; with an error latched it is `bdSymReaction_of_err` -/

section
variable {r : BdRegs}

theorem bdSymReaction_stuffing_zero (herr : r.err = .none) (hfive : r.cnt.toNat = 5) :
    bdSymReaction 0#1 r = emit { r with cnt := 0, idx := r.idx + 1 } [] := by
  simp [bdSymReaction, herr, hfive, Config.RUN]
theorem bdSymReaction_sixth_one (herr : r.err = .none) (hfive : r.cnt.toNat = 5) :
    bdSymReaction 1#1 r = emit { r with err := .pv, eoff := r.idx, idx := r.idx + 1 } [] := by
  simp [bdSymReaction, herr, hfive, Config.RUN]
theorem bdSymReaction_one (herr : r.err = .none) (hbelow : r.cnt.toNat < 5) :
    bdSymReaction 1#1 r = emit { r with cnt := storeRun (r.cnt.toNat + 1), idx := r.idx + 1 } [1] := by
  simp [bdSymReaction, herr, hbelow.ne, Config.RUN, runAfterOne]
theorem bdSymReaction_zero (herr : r.err = .none) (hbelow : r.cnt.toNat < 5) :
    bdSymReaction 0#1 r = emit { r with cnt := 0, idx := r.idx + 1 } [0] := by
  simp [bdSymReaction, herr, hbelow.ne, Config.RUN]

theorem bdEndReaction_of_violation (herr : r.err = .pv) :
    bdEndReaction r = raise .reset .protocolViolation r.eoff := if_pos herr
theorem bdEndReaction_of_truncated (herr : r.err ≠ .pv) (hfive : r.cnt.toNat = 5) :
    bdEndReaction r = raise .reset .malformedFrame r.idx := (if_neg herr).trans (if_pos hfive)
theorem bdEndReaction_of_complete (herr : r.err ≠ .pv) (hfive : r.cnt.toNat ≠ 5) :
    bdEndReaction r = closeOk .reset [] := (if_neg herr).trans (if_neg hfive)

end

/-! ## The contract's recursion (R120), case by case -/

section
variable {c : Nat}

theorem destuffBitsFrom_nil (hbelow : c < 5) (i : Nat) (acc : BitSequence) :
    destuffBitsFrom [] c i acc = .ok acc := if_pos hbelow
theorem destuffBitsFrom_truncated (hfive : ¬ c < 5) (i : Nat) (acc : BitSequence) :
    destuffBitsFrom [] c i acc = .fail .malformedFrame i := if_neg hfive
theorem destuffBitsFrom_zero (hbelow : c < 5) (y : BitSequence) (i : Nat) (acc : BitSequence) :
    destuffBitsFrom (0#1 :: y) c i acc = destuffBitsFrom y 0 (i + 1) (acc ++ [0]) := if_pos hbelow
theorem destuffBitsFrom_one (hbelow : c < 5) (y : BitSequence) (i : Nat) (acc : BitSequence) :
    destuffBitsFrom (1#1 :: y) c i acc = destuffBitsFrom y (c + 1) (i + 1) (acc ++ [1]) := if_pos hbelow
theorem destuffBitsFrom_stuffing_zero (hfive : ¬ c < 5) (y : BitSequence) (i : Nat) (acc : BitSequence) :
    destuffBitsFrom (0#1 :: y) c i acc = destuffBitsFrom y 0 (i + 1) acc := if_neg hfive
theorem destuffBitsFrom_sixth_one (hfive : ¬ c < 5) (y : BitSequence) (i : Nat) (acc : BitSequence) :
    destuffBitsFrom (1#1 :: y) c i acc = .fail .protocolViolation i := if_neg hfive

end

/-! ## The events compute the contract (R123) -/

/-- The output events of one transaction with a given result (R14): the `OUT` events before an ABORT are void. -/
def ReportsResult {α : Type} (es : List (OutEvent α)) : Result α → Prop
  | .ok x => es = x.map .out ++ [.done]
  | .fail k off => ∃ void : List α, es = void.map .out ++ [.abort k off]

/-- One event without a latched error either is one unfolding of the contract's recursion, with `BD.cnt` and
`BD.idx` as its counter and offset, or latches the violation with which the contract ends. -/
theorem bdSymReaction_refines {r : BdRegs} (herr : r.err = .none) (hcnt : r.cnt.toNat ≤ 5) (v : Bit) :
    (∃ (n : BitVec 3) (vs : BitSequence), n.toNat ≤ 5 ∧
      bdSymReaction v r = emit { r with cnt := n, idx := r.idx + 1 } vs ∧
      ∀ y acc, destuffBitsFrom (v :: y) r.cnt.toNat r.idx acc =
        destuffBitsFrom y n.toNat (r.idx + 1) (acc ++ vs)) ∨
    (bdSymReaction v r = emit { r with err := .pv, eoff := r.idx, idx := r.idx + 1 } [] ∧
      ∀ y acc, destuffBitsFrom (v :: y) r.cnt.toNat r.idx acc = .fail .protocolViolation r.idx) := by
  obtain hbelow | hfive := hcnt.lt_or_eq
  · left
    obtain rfl | rfl := eq_zero_or_one v
    · exact ⟨0, [0], Nat.zero_le 5, bdSymReaction_zero herr hbelow, fun y => destuffBitsFrom_zero hbelow y _⟩
    · have hstore : (storeRun (r.cnt.toNat + 1)).toNat = r.cnt.toNat + 1 := storeRun_toNat (by omega)
      refine ⟨_, [1], hstore.trans_le hbelow, bdSymReaction_one herr hbelow, fun y acc => ?_⟩
      rw [hstore, destuffBitsFrom_one hbelow]
  · obtain rfl | rfl := eq_zero_or_one v
    · refine .inl ⟨0, [], Nat.zero_le 5, bdSymReaction_stuffing_zero herr hfive, fun y acc => ?_⟩
      rw [destuffBitsFrom_stuffing_zero hfive.not_lt, List.append_nil]
      rfl
    · exact .inr ⟨bdSymReaction_sixth_one herr hfive, fun y => destuffBitsFrom_sixth_one hfive.not_lt y _⟩

/-- The whole transaction from any point without a latched error at which the symbols of `acc` have been emitted:
the contract goes on from there with `acc` copied so far. -/
theorem bdSyms_end_reports (y : BitSequence) {l : Lane BdRegs BitBeat Bit} {base : List (OutEvent Bit)}
    {acc : BitSequence} (herr : l.regs.err = .none) (hcnt : l.regs.cnt.toNat ≤ 5)
    (hout : l.out = base ++ acc.map .out) :
    ∃ es, ReportsResult es (destuffBitsFrom y l.regs.cnt.toNat l.regs.idx acc) ∧
      (bdSyms y l).react (bdEndReaction (bdSyms y l).regs) = { l with regs := .reset, out := base ++ es } := by
  induction y generalizing l acc with
  | nil =>
    have hnotPv : l.regs.err ≠ .pv := by simp [herr]
    obtain hbelow | hfive := hcnt.lt_or_eq
    · rw [destuffBitsFrom_nil hbelow, bdSyms_nil, bdEndReaction_of_complete hnotPv hbelow.ne]
      exact ⟨_, rfl, by simp [Lane.react, hout]⟩
    · rw [destuffBitsFrom_truncated hfive.not_lt, bdSyms_nil, bdEndReaction_of_truncated hnotPv hfive]
      exact ⟨_, ⟨acc, rfl⟩, by simp [Lane.react, hout]⟩
  | cons v y ih =>
    obtain ⟨n, vs, hn, hreact, hcontract⟩ | ⟨hreact, hcontract⟩ := bdSymReaction_refines herr hcnt v
    · rw [bdSyms_cons, hcontract, hreact]
      exact ih (l := l.react (emit { l.regs with cnt := n, idx := l.regs.idx + 1 } vs)) herr hn (by simp [hout])
    · rw [bdSyms_cons, hcontract, hreact, bdSyms_of_err (by simp), bdEndReaction_of_violation (by simp)]
      exact ⟨_, ⟨acc, rfl⟩, by simp [Lane.react, hout]⟩

/-- A transaction of BD as one update of its unit. -/
theorem exec_bitDestuff (y : BitSequence) (s : State) : exec (.bitDestuff y) s =
    .next (s.setBd ((bdSyms y s.bd).react (bdEndReaction (bdSyms y s.bd).regs))) :=
  congrArg (andThen · execBdEnd) ((runEvents_map (fun _ _ => rfl) y s).symm.trans (runEvents_bdSym y s))

/-- Settles O35: from the reset registers the contract's counter and offset are 0 and nothing has been emitted. -/
theorem bitDestuffTransactionIsTheContract : Obligations.BitDestuffTransactionIsTheContract := by
  intro y s hreset
  obtain ⟨es, hreport, hlane⟩ := bdSyms_end_reports y (l := s.bd) (base := s.bd.out) (acc := [])
    (by simp [hreset, BdRegs.reset]) (by simp [hreset, BdRegs.reset]) (by simp)
  have hcontract : ReportsResult es (bitDestuff y) := by rwa [hreset] at hreport
  rw [exec_bitDestuff, hlane, ← hreset]
  refine ⟨fun x hok => ?ok, fun k off hfail => ?fail⟩
  case ok =>
    rw [hok] at hcontract
    obtain rfl : es = _ := hcontract
    simp [State.setBd]
  case fail =>
    rw [hfail] at hcontract
    obtain ⟨void, rfl⟩ := hcontract
    exact ⟨void, by simp [State.setBd]⟩

/-! ## The two events -/

theorem exec_bdSym_of_reaction {v : Bit} {s : State} {a : Reaction BdRegs Bit}
    (h : bdSymReaction v s.bd.regs = a) : exec (.bdSym v) s = .next (s.setBd (s.bd.react a)) := by
  rw [exec_bdSym, h]

/-- A reaction that emits nothing writes the registers only. -/
theorem exec_bdSym_of_silent_reaction {v : Bit} {s : State} {r : BdRegs}
    (h : bdSymReaction v s.bd.regs = emit r []) :
    exec (.bdSym v) s = .next (s.setBd { s.bd with regs := r }) := by
  simp [exec_bdSym_of_reaction h, Lane.react]

/-- Settles O19, from the reaction's cases. -/
theorem bdSymCopiesDiscardsOrLatches : Obligations.BdSymCopiesDiscardsOrLatches := by
  refine ⟨codes_bd.sym_decode, fun s herr hfive => ?stuffingZero, fun s herr hfive => ?sixthOne,
    fun s herr hbelow => ?one, fun s herr hbelow => ?zero, fun v s herr => ?latched⟩
  case stuffingZero =>
    exact exec_bdSym_of_silent_reaction (bdSymReaction_stuffing_zero herr (congrArg BitVec.toNat hfive))
  case sixthOne =>
    exact exec_bdSym_of_silent_reaction (bdSymReaction_sixth_one herr (congrArg BitVec.toNat hfive))
  case one => exact ⟨_, storeRun_toNat (by omega), exec_bdSym_of_reaction (bdSymReaction_one herr hbelow)⟩
  case zero => exact exec_bdSym_of_reaction (bdSymReaction_zero herr hbelow)
  case latched => exact exec_bdSym_of_silent_reaction (bdSymReaction_of_err herr v)

theorem exec_bdEnd_of_reaction {s : State} {a : Reaction BdRegs Bit} (h : bdEndReaction s.bd.regs = a) :
    exec .bdEnd s = .next (s.setBd (s.bd.react a)) := by
  rw [exec_bdEnd, h]

/-- Settles O20: an END beat's data is not read, and the reaction to END has the three cases. -/
theorem bdEndReportsTheResult : Obligations.BdEndReportsTheResult := by
  refine ⟨fun d => by simp [decodeBeat, decodeBitBeat_end], fun s herr => ?violation,
    fun s herr hfive => ?truncated, fun s herr hfive => ?complete⟩
  case violation => exact exec_bdEnd_of_reaction (bdEndReaction_of_violation herr)
  case truncated => exact exec_bdEnd_of_reaction (bdEndReaction_of_truncated herr (congrArg BitVec.toNat hfive))
  case complete =>
    exact exec_bdEnd_of_reaction (bdEndReaction_of_complete herr fun h => hfive (BitVec.eq_of_toNat_eq h))

end Sys2Proof.Machine
end

section
/-! Which bit sequences BD accepts (spec/41_bit_destuffer.md R124, R125): the contract read through a stretch
without six consecutive ones, the first six ones of a sequence, and the outputs of the stuffer. -/

namespace Sys2Proof.Machine

/-! ## The run of ones at the end of a sequence -/

/-- Six consecutive ones. -/
abbrev sixOnes : BitSequence := List.replicate 6 1#1

/-- The counter of R120 after `y`: a one adds one, a zero resets it (`bitDestuff_append`). -/
def onesRun (y : BitSequence) : Nat := y.foldl (fun n b => if b = 1#1 then n + 1 else 0) 0

theorem onesRun_concat (y : BitSequence) (b : Bit) :
    onesRun (y ++ [b]) = if b = 1#1 then onesRun y + 1 else 0 := by simp [onesRun]

theorem ones_suffix_iff (y : BitSequence) (n : Nat) : List.replicate n 1#1 <:+ y ↔ n ≤ onesRun y := by
  induction y using List.reverseRecOn generalizing n with
  | nil => simp [onesRun]
  | append_singleton y b ih =>
    cases n with
    | zero => simp
    | succ n =>
      rw [onesRun_concat, List.replicate_succ', List.suffix_concat_iff]
      obtain rfl | rfl := eq_zero_or_one b
      · simp
      · simp [ih]

theorem sixOnes_infix_concat_iff (y : BitSequence) (b : Bit) :
    sixOnes <:+: y ++ [b] ↔ sixOnes <:+: y ∨ b = 1#1 ∧ 5 ≤ onesRun y := by
  rw [List.infix_concat_iff, ones_suffix_iff, onesRun_concat, or_comm]
  obtain rfl | rfl := eq_zero_or_one b <;> simp

theorem onesRun_le_of_no_sixOnes {y : BitSequence} (h : ¬ sixOnes <:+: y) : onesRun y ≤ 5 := by
  by_contra hlong
  exact h ((ones_suffix_iff y 6).2 (by omega)).isInfix

/-! ## The contract through a stretch without six consecutive ones -/

/-- Such a stretch is read to its end: what follows is met with the run of ones before it and with the stretch's
length as offset. -/
theorem bitDestuff_append {p : BitSequence} (h : ¬ sixOnes <:+: p) : ∃ x, ∀ rest,
    bitDestuff (p ++ rest) = destuffBitsFrom rest (onesRun p) p.length x := by
  induction p using List.reverseRecOn with
  | nil => exact ⟨[], fun _ => rfl⟩
  | append_singleton p b ih =>
    rw [sixOnes_infix_concat_iff, not_or] at h
    obtain ⟨hp, hb⟩ := h
    obtain ⟨x, hx⟩ := ih hp
    have hrun := onesRun_le_of_no_sixOnes hp
    simp only [List.append_assoc, List.singleton_append, hx, onesRun_concat, List.length_append,
      List.length_singleton]
    obtain rfl | rfl := eq_zero_or_one b
    · obtain hbelow | hfive := hrun.lt_or_eq
      · exact ⟨_, fun rest => destuffBitsFrom_zero hbelow rest _ x⟩
      · exact ⟨x, fun rest => destuffBitsFrom_stuffing_zero hfive.not_lt rest _ x⟩
    · exact ⟨_, fun rest => destuffBitsFrom_one (by simpa using hb) rest _ x⟩

theorem bitDestuff_of_no_sixOnes {y : BitSequence} (h : ¬ sixOnes <:+: y) :
    onesRun y < 5 ∧ (∃ x, bitDestuff y = .ok x) ∨
      onesRun y = 5 ∧ bitDestuff y = .fail .malformedFrame y.length := by
  obtain ⟨x, hx⟩ := bitDestuff_append h
  have hread := hx []
  rw [List.append_nil] at hread
  obtain hbelow | hfive := (onesRun_le_of_no_sixOnes h).lt_or_eq
  · exact .inl ⟨hbelow, x, hread.trans (destuffBitsFrom_nil hbelow _ x)⟩
  · exact .inr ⟨hfive, hread.trans (destuffBitsFrom_truncated hfive.not_lt _ x)⟩

/-- Settles O57: the flag's zero clears the counter, whether it is copied or discarded, and its ones are six. -/
theorem flagLeftOnTheInputIsAViolation : Obligations.FlagLeftOnTheInputIsAViolation := by
  intro p rest h
  obtain ⟨x, hx⟩ := bitDestuff_append h
  rw [List.append_assoc, hx]
  obtain hbelow | hfive := (onesRun_le_of_no_sixOnes h).lt_or_eq
  · exact destuffBitsFrom_zero hbelow _ _ x
  · exact destuffBitsFrom_stuffing_zero hfive.not_lt _ _ x

/-! ## The first six consecutive ones -/

/-- The first six consecutive ones of `y` end at position `i` (`bitDestuff_eq_violation_iff`). -/
def FirstSixOnesEndAt (y : BitSequence) (i : Nat) : Prop :=
  5 ≤ i ∧ (y.drop (i - 5)).take 6 = sixOnes ∧ ∀ j, j + 5 < i → (y.drop j).take 6 ≠ sixOnes

theorem infix_of_take_drop {α : Type} {l y : List α} {m n : Nat} (h : (y.drop m).take n = l) : l <:+: y :=
  h ▸ (List.take_prefix n _).isInfix.trans (List.drop_suffix m y).isInfix

theorem FirstSixOnesEndAt.sixOnes_infix {y : BitSequence} {i : Nat} (h : FirstSixOnesEndAt y i) :
    sixOnes <:+: y := infix_of_take_drop h.2.1

theorem FirstSixOnesEndAt.unique {y : BitSequence} {i j : Nat} (hi : FirstSixOnesEndAt y i)
    (hj : FirstSixOnesEndAt y j) : i = j := by
  obtain ⟨hi5, hiOnes, hiFirst⟩ := hi
  obtain ⟨hj5, hjOnes, hjFirst⟩ := hj
  obtain hlt | heq | hgt := Nat.lt_trichotomy i j
  · exact absurd hiOnes (hjFirst (i - 5) (by omega))
  · exact heq
  · exact absurd hjOnes (hiFirst (j - 5) (by omega))

/-- A sequence with six consecutive ones up to the last of the first six: a stretch without them that ends in
five ones, and a sixth one. -/
theorem exists_first_sixth_one {y : BitSequence} (h : sixOnes <:+: y) :
    ∃ p rest, y = p ++ 1#1 :: rest ∧ ¬ sixOnes <:+: p ∧ onesRun p = 5 := by
  induction y using List.reverseRecOn with
  | nil => simp at h
  | append_singleton y b ih =>
    by_cases hy : sixOnes <:+: y
    · obtain ⟨p, rest, rfl, hp⟩ := ih hy
      exact ⟨p, rest ++ [b], by simp, hp⟩
    · obtain hin | ⟨rfl, hrun⟩ := (sixOnes_infix_concat_iff y b).1 h
      · exact absurd hin hy
      · exact ⟨y, [], rfl, hy, (onesRun_le_of_no_sixOnes hy).antisymm hrun⟩

theorem firstSixOnesEndAt_of_sixth_one {p : BitSequence} (hp : ¬ sixOnes <:+: p) (hrun : onesRun p = 5)
    (rest : BitSequence) : FirstSixOnesEndAt (p ++ 1#1 :: rest) p.length := by
  have hfive : List.replicate 5 1#1 <:+ p := (ones_suffix_iff p 5).2 hrun.ge
  refine ⟨by simpa using hfive.length_le, ?ones, fun j hj hones => hp ?first⟩
  case ones =>
    obtain ⟨q, rfl⟩ := hfive
    simp [sixOnes]
  case first =>
    rw [List.drop_append_of_le_length (by omega),
      List.take_append_of_le_length (by rw [List.length_drop]; omega)] at hones
    exact infix_of_take_drop hones

theorem bitDestuff_of_sixOnes {y : BitSequence} (h : sixOnes <:+: y) :
    ∃ i, FirstSixOnesEndAt y i ∧ bitDestuff y = .fail .protocolViolation i := by
  obtain ⟨p, rest, rfl, hp, hrun⟩ := exists_first_sixth_one h
  obtain ⟨x, hx⟩ := bitDestuff_append hp
  exact ⟨p.length, firstSixOnesEndAt_of_sixth_one hp hrun rest,
    (hx _).trans (destuffBitsFrom_sixth_one hrun.not_lt rest _ x)⟩

theorem bitDestuff_eq_violation_iff (y : BitSequence) (i : Nat) :
    bitDestuff y = .fail .protocolViolation i ↔ FirstSixOnesEndAt y i := by
  by_cases h : sixOnes <:+: y
  · obtain ⟨j, hfirst, hfail⟩ := bitDestuff_of_sixOnes h
    rw [hfail]
    exact ⟨fun heq => by cases heq; exact hfirst, fun hi => by rw [hi.unique hfirst]⟩
  · refine iff_of_false ?_ fun hfirst => h hfirst.sixOnes_infix
    obtain ⟨-, x, hok⟩ | ⟨-, hfail⟩ := bitDestuff_of_no_sixOnes h
    · simp [hok]
    · simp [hfail]

/-! ## The outputs of the stuffer -/

/-- From an equal counter the destuffer copies what the stuffer has stuffed. -/
theorem destuffBitsFrom_stuffBitsFrom (x : BitSequence) {c : Nat} (hc : c < 5) (i : Nat) (acc : BitSequence) :
    destuffBitsFrom (stuffBitsFrom x c) c i acc = .ok (acc ++ x) := by
  induction x generalizing c i acc with
  | nil => rw [stuffBitsFrom_nil, destuffBitsFrom_nil hc, List.append_nil]
  | cons b x ih =>
    obtain rfl | rfl := eq_zero_or_one b
    · exact (destuffBitsFrom_zero hc _ i acc).trans ((ih (by omega) _ _).trans (by simp))
    · by_cases hrun : c + 1 < 5
      · rw [stuffBitsFrom_one x hrun]
        exact (destuffBitsFrom_one hc _ i acc).trans ((ih hrun _ _).trans (by simp))
      · rw [stuffBitsFrom_fifth_one x hrun]
        exact (destuffBitsFrom_one hc _ i acc).trans
          ((destuffBitsFrom_stuffing_zero hrun _ _ _).trans ((ih (by omega) _ _).trans (by simp)))

/-- What the destuffer accepts is the stuffed form of what it copies; at counter 5 the stuffing zero is still
due. -/
theorem stuffBitsFrom_of_destuffBitsFrom {y : BitSequence} {c i : Nat} {acc z : BitSequence} (hc : c ≤ 5)
    (h : destuffBitsFrom y c i acc = .ok z) :
    ∃ x, z = acc ++ x ∧ y = if c < 5 then stuffBitsFrom x c else 0 :: stuffBitsFrom x 0 := by
  induction y generalizing c i acc with
  | nil =>
    by_cases hbelow : c < 5
    · rw [destuffBitsFrom_nil hbelow] at h
      cases h
      exact ⟨[], by simp, by simp [hbelow]⟩
    · rw [destuffBitsFrom_truncated hbelow] at h
      cases h
  | cons b y ih =>
    obtain rfl | rfl := eq_zero_or_one b <;> by_cases hbelow : c < 5
    · rw [destuffBitsFrom_zero hbelow] at h
      obtain ⟨x, rfl, hy⟩ := ih (by omega) h
      exact ⟨0#1 :: x, by simp, by simp [hbelow, hy, stuffBitsFrom_zero]⟩
    · rw [destuffBitsFrom_stuffing_zero hbelow] at h
      obtain ⟨x, rfl, hy⟩ := ih (by omega) h
      exact ⟨x, rfl, by simp [hbelow, hy]⟩
    · rw [destuffBitsFrom_one hbelow] at h
      obtain ⟨x, rfl, hy⟩ := ih (by omega) h
      refine ⟨1#1 :: x, by simp, ?_⟩
      by_cases hrun : c + 1 < 5
      · simp [hbelow, hy, hrun, stuffBitsFrom_one]
      · simp [hbelow, hy, hrun, stuffBitsFrom_fifth_one]
    · rw [destuffBitsFrom_sixth_one hbelow] at h
      cases h

theorem bitDestuff_eq_ok_iff (y x : BitSequence) : bitDestuff y = .ok x ↔ bitStuff x = y := by
  constructor
  · intro h
    obtain ⟨x', rfl, hy⟩ := stuffBitsFrom_of_destuffBitsFrom (by omega) h
    exact hy.symm
  · rintro rfl
    exact destuffBitsFrom_stuffBitsFrom x (by omega) 0 []

/-- Settles O56: with six consecutive ones the contract ends at the sixth, and without them the run at the end
decides; the accepted sequences by the two directions between stuffer and destuffer. -/
theorem bitDestuffAcceptance : Obligations.BitDestuffAcceptance := by
  intro y
  refine ⟨?accepted, bitDestuff_eq_violation_iff y, fun n => ?truncated,
    exists_congr (bitDestuff_eq_ok_iff y), fun x => (bitDestuff_eq_ok_iff y x).1⟩
  case accepted =>
    change _ ↔ ¬ sixOnes <:+: y ∧ onesRun y ≠ 5
    by_cases hsix : sixOnes <:+: y
    · obtain ⟨i, -, hfail⟩ := bitDestuff_of_sixOnes hsix
      simp [hsix, hfail]
    · obtain ⟨hrun, hok⟩ | ⟨hrun, hfail⟩ := bitDestuff_of_no_sixOnes hsix
      · exact iff_of_true hok ⟨hsix, hrun.ne⟩
      · simp [hrun, hfail]
  case truncated =>
    change _ ↔ n = y.length ∧ ¬ sixOnes <:+: y ∧ onesRun y = 5
    by_cases hsix : sixOnes <:+: y
    · obtain ⟨i, -, hfail⟩ := bitDestuff_of_sixOnes hsix
      simp [hsix, hfail]
    · obtain ⟨hrun, x, hok⟩ | ⟨hrun, hfail⟩ := bitDestuff_of_no_sixOnes hsix
      · simp [hrun.ne, hok]
      · simp [hsix, hrun, hfail, eq_comm]

end Sys2Proof.Machine
end

section
/-! CS, the character stuffer (spec/42_char_stuffer.md R140 to R144): its reactions, that the events compute the
contract, and the lengths of stuffed and of accepted frames (spec/44_laws.md R198). -/

namespace Sys2Proof.Machine

/-! ## The two events (R141, R142) -/

theorem escaped_eq_ite (c : CharCfg) (v : Byte) :
    escaped c v = if v = c.flag ∨ v = c.esc then [c.esc, v] else [v] := by
  simp [escaped, isReserved]

theorem leadingFlag_eq_ite (c : CharCfg) (r : CsRegs) :
    leadingFlag c r = if r.opened = false then [c.flag] else [] := by
  cases h : r.opened <;> simp [leadingFlag, h]

/-- Settles O21: the reaction's symbols are the leading FLAG, if due, and the escaped byte. -/
theorem csSymEmitsFlagOnceAndEscapes : Obligations.CsSymEmitsFlagOnceAndEscapes := by
  refine ⟨codes_cs.sym_decode, fun v s hcfg => ?_⟩
  rw [exec_csSym ((CharCfg_wf_iff _).2 hcfg)]
  simp [State.setCs, Lane.react, csSymReaction, leadingFlag_eq_ite, escaped_eq_ite,
    apply_ite (List.map OutEvent.out)]

/-- Settles O22: an END beat's data is not read, and the reaction's symbols are the leading FLAG, if due, and the
trailing one. -/
theorem csEndEmitsTheTrailingFlag : Obligations.CsEndEmitsTheTrailingFlag := by
  refine ⟨fun d => by simp [decodeBeat, decodeByteBeat_end], fun s hcfg => ?_⟩
  rw [exec_csEnd ((CharCfg_wf_iff _).2 hcfg)]
  simp [State.setCs, Lane.react, csEndReaction, closeOk, CsRegs.reset, leadingFlag_eq_ite,
    apply_ite (List.map OutEvent.out)]

/-! ## The events compute the contract (R143) -/

@[simp] theorem escapeBytes_nil (c : CharCfg) : escapeBytes c [] = [] := rfl

theorem escapeBytes_cons (c : CharCfg) (v : Byte) (x : ByteSequence) :
    escapeBytes c (v :: x) = escaped c v ++ escapeBytes c x := by
  rw [escaped_eq_ite, escapeBytes]
  split <;> rfl

theorem escapeBytes_eq_flatMap (c : CharCfg) (x : ByteSequence) : escapeBytes c x = x.flatMap (escaped c) := by
  induction x with
  | nil => rfl
  | cons v x ih => rw [escapeBytes_cons, ih, List.flatMap_cons]

theorem exec_charStuff_nil (s : State) : exec (.charStuff []) s = exec .csEnd s := rfl

theorem exec_charStuff_cons (v : Byte) (x : ByteSequence) (s : State) :
    exec (.charStuff (v :: x)) s = andThen (exec (.csSym v) s) (exec (.charStuff x)) :=
  andThen_assoc _ _ _

/-- A transaction from any registers of CS: the leading FLAG, if still due, the escaped payload and the trailing
FLAG. -/
theorem exec_charStuff {s : State} (h : s.csCfg.wf = true) (x : ByteSequence) :
    exec (.charStuff x) s = .next (s.setCs (s.cs.react (closeOk .reset
      (leadingFlag s.csCfg s.cs.regs ++ escapeBytes s.csCfg x ++ [s.csCfg.flag])))) := by
  induction x generalizing s with
  | nil =>
    rw [exec_charStuff_nil, exec_csEnd h, escapeBytes_nil, List.append_nil]
    rfl
  | cons v x ih =>
    rw [exec_charStuff_cons, exec_csSym h, andThen_next, ih (by exact h), escapeBytes_cons]
    simp [State.setCs, Lane.react, csSymReaction, leadingFlag_eq_ite]

/-- Settles O36: from the reset registers the leading FLAG is due, and escaping works byte by byte. -/
theorem charStuffTransactionIsTheContract : Obligations.CharStuffTransactionIsTheContract := by
  refine ⟨fun x s hcfg hreset => ?transaction, fun c x => ?layout⟩
  case transaction =>
    have hflag : leadingFlag s.csCfg s.cs.regs = [s.csCfg.flag] := by rw [hreset]; rfl
    rw [exec_charStuff ((CharCfg_wf_iff _).2 hcfg), hflag, ← hreset]
    simp [State.setCs, Lane.react, closeOk, charStuff]
  case layout =>
    simp only [charStuff, escapeBytes_eq_flatMap, ← escaped_eq_ite]
    rfl

/-! ## The length of a stuffed frame (R144) -/

theorem escaped_length_eq (c : CharCfg) (v : Byte) :
    (escaped c v).length = 1 + if isReserved c v then 1 else 0 := by
  rw [escaped]
  split <;> rfl

theorem escapeBytes_length (c : CharCfg) (x : ByteSequence) :
    (escapeBytes c x).length = x.length + x.countP (isReserved c) := by
  induction x with
  | nil => rfl
  | cons v x ih =>
    rw [escapeBytes_cons, List.length_append, ih, escaped_length_eq, List.length_cons, List.countP_cons]
    omega

theorem charStuff_length (c : CharCfg) (x : ByteSequence) :
    (charStuff c x).length = x.length + 2 + x.countP (isReserved c) := by
  simp only [charStuff, List.length_append, List.length_singleton, escapeBytes_length]
  omega

/-! ## The length of an accepted frame (R198) -/

/-- Between two FLAGs the contract of CD is its scan of the interior. -/
theorem charDestuff_frame (c : CharCfg) (y : ByteSequence) :
    charDestuff c (c.flag :: y ++ [c.flag]) = scanInterior c (y.length + 2) y 1 [] := by
  simp [charDestuff, interior, List.getLast?_cons]

/-- An accepted sequence is an interior between two FLAGs, and the scan accepts the interior. -/
theorem frame_of_charDestuff_eq_ok {c : CharCfg} {s x : ByteSequence} (h : charDestuff c s = .ok x) :
    ∃ y, s = c.flag :: y ++ [c.flag] ∧ scanInterior c (y.length + 2) y 1 [] = .ok x := by
  cases s with
  | nil => simp [charDestuff] at h
  | cons a t =>
    have hhead : a = c.flag := by
      by_contra hne
      simp [charDestuff, hne] at h
    subst hhead
    obtain rfl | ⟨y, b, rfl⟩ := List.eq_nil_or_concat t
    · simp [charDestuff] at h
    · have hlast : b = c.flag := by
        by_contra hne
        simp [charDestuff, List.getLast?_cons, hne] at h
      subst hlast
      rw [List.concat_eq_append] at h
      exact ⟨y, by simp, (charDestuff_frame c y).symm.trans h⟩

section
variable {c : CharCfg} {n : Nat}

theorem scanInterior_pair (b : Byte) (y : ByteSequence) (i : Nat) (acc : ByteSequence) :
    scanInterior c n (c.esc :: b :: y) i acc = scanInterior c n y (i + 2) (acc ++ [b]) := if_pos rfl

theorem scanInterior_esc_last (i : Nat) (acc : ByteSequence) :
    scanInterior c n [c.esc] i acc = .fail .malformedFrame n := if_pos rfl

theorem scanInterior_flag (hcfg : c.flag ≠ c.esc) (y : ByteSequence) (i : Nat) (acc : ByteSequence) :
    scanInterior c n (c.flag :: y) i acc = .fail .protocolViolation i := by
  cases y <;> simp [scanInterior, hcfg]

theorem scanInterior_plain {b : Byte} (hflag : b ≠ c.flag) (hesc : b ≠ c.esc) (y : ByteSequence) (i : Nat)
    (acc : ByteSequence) : scanInterior c n (b :: y) i acc = scanInterior c n y (i + 1) (acc ++ [b]) := by
  cases y <;> simp [scanInterior, hflag, hesc]

/-- The scan copies each byte of the interior at most once. -/
theorem length_le_of_scanInterior_eq_ok {y acc x : ByteSequence} {i : Nat}
    (h : scanInterior c n y i acc = .ok x) : x.length ≤ acc.length + y.length := by
  induction y, i, acc using scanInterior.induct c with
  | case1 i acc =>
    cases h
    exact Nat.le_refl _
  | case2 i acc =>
    rw [scanInterior_esc_last] at h
    cases h
  | case3 i acc hcfg | case6 b y i acc hcfg =>
    rw [scanInterior_flag hcfg] at h
    cases h
  | case4 a i acc hesc hflag =>
    rw [scanInterior_plain hflag hesc] at h
    cases h
    simp
  | case5 b y i acc ih =>
    rw [scanInterior_pair] at h
    exact (ih h).trans (by simp; omega)
  | case7 a b y i acc hesc hflag ih =>
    rw [scanInterior_plain hflag hesc] at h
    exact (ih h).trans (by simp; omega)

end

theorem exists_unreserved (c : CharCfg) : ∃ b : Byte, b ≠ c.flag ∧ b ≠ c.esc := by
  obtain ⟨b, -, hb⟩ := Finset.exists_mem_notMem_of_card_lt_card (s := {c.flag, c.esc}) (t := {0, 1, (2 : Byte)})
    (Finset.card_le_two.trans_lt (by decide))
  exact ⟨b, by simpa using hb⟩

/-- Settles O52: each reserved byte costs one ESC, the scan copies at most the interior, and a byte that needs no
ESC may have one. -/
theorem charLengths : Obligations.CharLengths := by
  refine ⟨charStuff_length, fun c x => ?bounds, fun c s x _ hok => ?accepted, fun c _ => ?notInjective⟩
  case bounds =>
    have hcount : x.countP (isReserved c) ≤ x.length := List.countP_le_length
    rw [charStuff_length]
    omega
  case accepted =>
    obtain ⟨y, rfl, hscan⟩ := frame_of_charDestuff_eq_ok hok
    simpa using length_le_of_scanInterior_eq_ok hscan
  case notInjective =>
    obtain ⟨b, hflag, hesc⟩ := exists_unreserved c
    refine ⟨c.flag :: [b] ++ [c.flag], c.flag :: [c.esc, b] ++ [c.flag], [b], by simp, ?plain, ?pair⟩
    case plain => rw [charDestuff_frame, scanInterior_plain hflag hesc]; rfl
    case pair => rw [charDestuff_frame, scanInterior_pair]; rfl

end Sys2Proof.Machine
end

section
/-! CD, the character destuffer (spec/43_char_destuffer.md R160 to R165, R170): its reactions, that the events
compute the contract, and the frames with an escape that was not needed. -/

namespace Sys2Proof.Machine

/-! ## The reactions (R161, R162), case by case; SYM with an error latched is `cdSymReaction_of_err` -/

section
variable {c : CharCfg} {v : Byte} {r : CdRegs}

theorem cdSymReaction_leading_flag (herr : r.err = .none) (hst : r.st = .awaitFlag) (hv : v = c.flag) :
    cdSymReaction c v r =
      emit { r with st := .inFrame, lastflag := lastFlagOf c v, idx := r.idx + 1 } [] := by
  simp [cdSymReaction, herr, hst, hv]
theorem cdSymReaction_no_leading_flag (herr : r.err = .none) (hst : r.st = .awaitFlag) (hv : v ≠ c.flag) :
    cdSymReaction c v r =
      emit { r with err := .mf, eoff := r.idx, lastflag := lastFlagOf c v, idx := r.idx + 1 } [] := by
  simp [cdSymReaction, herr, hst, hv]
theorem cdSymReaction_esc (herr : r.err = .none) (hst : r.st = .inFrame) (hv : v = c.esc) :
    cdSymReaction c v r =
      emit { r with st := .escapeNext, lastflag := lastFlagOf c v, idx := r.idx + 1 } [] := by
  simp [cdSymReaction, herr, hst, hv]
theorem cdSymReaction_closing_flag (hcfg : c.flag ≠ c.esc) (herr : r.err = .none) (hst : r.st = .inFrame)
    (hv : v = c.flag) : cdSymReaction c v r =
      emit { r with st := .done, eoff := r.idx, lastflag := lastFlagOf c v, idx := r.idx + 1 } [] := by
  simp [cdSymReaction, herr, hst, hv, hcfg]
theorem cdSymReaction_plain (herr : r.err = .none) (hst : r.st = .inFrame) (hesc : v ≠ c.esc)
    (hflag : v ≠ c.flag) :
    cdSymReaction c v r = emit { r with lastflag := lastFlagOf c v, idx := r.idx + 1 } [v] := by
  simp [cdSymReaction, herr, hst, hesc, hflag]
theorem cdSymReaction_escaped (herr : r.err = .none) (hst : r.st = .escapeNext) :
    cdSymReaction c v r =
      emit { r with st := .inFrame, lastflag := lastFlagOf c v, idx := r.idx + 1 } [v] := by
  simp [cdSymReaction, herr, hst]
theorem cdSymReaction_after_closing_flag (herr : r.err = .none) (hst : r.st = .done) :
    cdSymReaction c v r = emit { r with err := .pv, lastflag := lastFlagOf c v, idx := r.idx + 1 } [] := by
  simp [cdSymReaction, herr, hst]

theorem cdEndReaction_of_mf (herr : r.err = .mf) :
    cdEndReaction r = raise .reset .malformedFrame r.eoff := by
  simp [cdEndReaction, herr]
theorem cdEndReaction_of_pv_closed (herr : r.err = .pv) (hlast : r.lastflag = true) :
    cdEndReaction r = raise .reset .protocolViolation r.eoff := by
  simp [cdEndReaction, herr, hlast]
theorem cdEndReaction_of_pv_unclosed (herr : r.err = .pv) (hlast : r.lastflag = false) :
    cdEndReaction r = raise .reset .malformedFrame r.idx := by
  simp [cdEndReaction, herr, hlast]
theorem cdEndReaction_of_done (herr : r.err = .none) (hst : r.st = .done) :
    cdEndReaction r = closeOk .reset [] := by
  simp [cdEndReaction, herr, hst]
theorem cdEndReaction_of_not_done (herr : r.err = .none) (hst : r.st ≠ .done) :
    cdEndReaction r = raise .reset .malformedFrame r.idx := by
  cases h : r.st <;> simp_all [cdEndReaction]

end

/-! ## The two events -/

theorem exec_cdSym_of_outs {v : Byte} {s : State} (hcfg : s.cdCfg.flag ≠ s.cdCfg.esc) {vs : ByteSequence}
    (h : (cdSymReaction s.cdCfg v s.cd.regs).outs = vs.map .out) : exec (.cdSym v) s =
      .next { s with cd := { s.cd with
        regs := (cdSymReaction s.cdCfg v s.cd.regs).regs, out := s.cd.out ++ vs.map .out } } := by
  rw [exec_cdSym ((CharCfg_wf_iff _).2 hcfg), Lane.react, h]
  rfl

/-- What a reaction appends and writes, once it is known to be an `emit`. -/
theorem eq_of_outs_of_eq_emit {ρ α : Type} {a : Reaction ρ α} {vs ws : List α} {r : ρ}
    (houts : a.outs = vs.map .out) (h : a = emit r ws) : a.regs = r ∧ vs = ws := by
  subst h
  exact ⟨rfl, (List.map_injective_iff.2 (fun _ _ => OutEvent.out.inj) houts).symm⟩

/-- Settles O23, from the reaction's cases. -/
theorem cdSymMovesTheReceiver : Obligations.CdSymMovesTheReceiver := by
  refine ⟨codes_cd.sym_decode, fun v s hcfg => ?_⟩
  obtain ⟨vs, houts, -⟩ := cdSymReaction_outs s.cdCfg v s.cd.regs
  refine ⟨_, vs, exec_cdSym_of_outs hcfg houts, by simp, by simp [lastFlagOf], fun herr => ?latched,
    fun herr hst hv => ?leadingFlag, fun herr hst hv => ?noLeadingFlag, fun herr hst hv => ?esc,
    fun herr hst hv => ?closingFlag, fun herr hst hesc hflag => ?plain, fun herr hst => ?escaped,
    fun herr hst => ?afterClosingFlag⟩
  case latched =>
    obtain ⟨hregs, rfl⟩ := eq_of_outs_of_eq_emit houts (cdSymReaction_of_err herr _ _)
    simp [hregs]
  case leadingFlag =>
    obtain ⟨hregs, rfl⟩ := eq_of_outs_of_eq_emit houts (cdSymReaction_leading_flag herr hst hv)
    simp [hregs, herr]
  case noLeadingFlag =>
    obtain ⟨hregs, rfl⟩ := eq_of_outs_of_eq_emit houts (cdSymReaction_no_leading_flag herr hst hv)
    simp [hregs, hst]
  case esc =>
    obtain ⟨hregs, rfl⟩ := eq_of_outs_of_eq_emit houts (cdSymReaction_esc herr hst hv)
    simp [hregs, herr]
  case closingFlag =>
    obtain ⟨hregs, rfl⟩ := eq_of_outs_of_eq_emit houts (cdSymReaction_closing_flag hcfg herr hst hv)
    simp [hregs, herr]
  case plain =>
    obtain ⟨hregs, rfl⟩ := eq_of_outs_of_eq_emit houts (cdSymReaction_plain herr hst hesc hflag)
    simp [hregs, herr, hst]
  case escaped =>
    obtain ⟨hregs, rfl⟩ := eq_of_outs_of_eq_emit houts (cdSymReaction_escaped herr hst)
    simp [hregs, herr]
  case afterClosingFlag =>
    obtain ⟨hregs, rfl⟩ := eq_of_outs_of_eq_emit houts (cdSymReaction_after_closing_flag herr hst)
    simp [hregs, hst]

/-- Settles O24: an END beat's data is not read, and the reaction to END has one terminator in each case. -/
theorem cdEndReportsTheResult : Obligations.CdEndReportsTheResult := by
  refine ⟨fun d => by simp [decodeBeat, decodeByteBeat_end], fun s hcfg => ?_⟩
  obtain ⟨e, houts, -⟩ := cdEndReaction_outs s.cd.regs
  have hexec : exec .cdEnd s = .next (s.setCd { s.cd with regs := .reset, out := s.cd.out ++ [e] }) := by
    rw [exec_cdEnd ((CharCfg_wf_iff _).2 hcfg), Lane.react, houts, cdEndReaction_regs]
  refine ⟨e, hexec, fun herr => ?mf, fun herr hlast => ?pvClosed, fun herr hlast => ?pvUnclosed,
    fun herr hst => ?done, fun herr hst => ?notDone⟩
  case mf => simpa [cdEndReaction_of_mf herr, eq_comm] using houts
  case pvClosed => simpa [cdEndReaction_of_pv_closed herr hlast, eq_comm] using houts
  case pvUnclosed => simpa [cdEndReaction_of_pv_unclosed herr hlast, eq_comm] using houts
  case done => simpa [cdEndReaction_of_done herr hst, eq_comm] using houts
  case notDone => simpa [cdEndReaction_of_not_done herr hst, eq_comm] using houts

/-! ## What a list of symbols leaves (R161) -/

section
variable {c : CharCfg}

/-- What every symbol keeps of the registers, a list of symbols keeps. -/
theorem cdSyms_keeps {P : CdRegs → Prop} (hstep : ∀ v r, P r → P (cdSymReaction c v r).regs) (ys : ByteSequence)
    {l : Lane CdRegs ByteBeat Byte} (h : P l.regs) : P (cdSyms c ys l).regs := by
  induction ys generalizing l with
  | nil => exact h
  | cons v ys ih => exact ih (hstep v l.regs h)

/-- Symbols touch only the registers and the output, to which they append `OUT` events. -/
theorem cdSyms_frame (c : CharCfg) (ys : ByteSequence) (l : Lane CdRegs ByteBeat Byte) : ∃ vs : ByteSequence,
    cdSyms c ys l = { l with regs := (cdSyms c ys l).regs, out := l.out ++ vs.map .out } := by
  induction ys generalizing l with
  | nil => exact ⟨[], by simp⟩
  | cons v ys ih =>
    obtain ⟨ws, houts, -⟩ := cdSymReaction_outs c v l.regs
    obtain ⟨vs, hvs⟩ := ih (l.react (cdSymReaction c v l.regs))
    refine ⟨ws ++ vs, hvs.trans ?_⟩
    simp [Lane.react, houts]

theorem cdSyms_concat_lastflag (ys : ByteSequence) (v : Byte) (l : Lane CdRegs ByteBeat Byte) :
    (cdSyms c (ys ++ [v]) l).regs.lastflag = lastFlagOf c v := by
  simp [cdSyms]

/-- A symbol after the closing FLAG latches the violation, at that FLAG's offset. -/
theorem cdSyms_after_closing_flag {l : Lane CdRegs ByteBeat Byte} (herr : l.regs.err = .none)
    (hst : l.regs.st = .done) {ys : ByteSequence} (hne : ys ≠ []) :
    (cdSyms c ys l).regs.err = .pv ∧ (cdSyms c ys l).regs.eoff = l.regs.eoff := by
  obtain ⟨v, ys, rfl⟩ := List.exists_cons_of_ne_nil hne
  rw [cdSyms_cons, cdSymReaction_after_closing_flag herr hst, cdSyms_of_err (by simp)]
  exact ⟨rfl, rfl⟩

theorem cdSymReaction_st_ne_awaitFlag (v : Byte) {r : CdRegs} (h : r.st ≠ .awaitFlag) :
    (cdSymReaction c v r).regs.st ≠ .awaitFlag := by
  simp only [cdSymReaction]
  split
  · cases hst : r.st with
    | awaitFlag => exact absurd hst h
    | inFrame =>
      dsimp only
      split
      · simp
      · split <;> simp
    | escapeNext => simp
    | done => simp
  · exact h

end

/-! ## The contract (R160), case by case; between two FLAGs it is `charDestuff_frame` -/

theorem charDestuff_nil (c : CharCfg) : charDestuff c [] = .fail .malformedFrame 0 := rfl
theorem charDestuff_bad_first {c : CharCfg} {a : Byte} (h : a ≠ c.flag) (t : ByteSequence) :
    charDestuff c (a :: t) = .fail .malformedFrame 0 := by
  simp [charDestuff, h]
theorem charDestuff_single_flag (c : CharCfg) : charDestuff c [c.flag] = .fail .malformedFrame 1 := by
  simp [charDestuff]
theorem charDestuff_bad_last {c : CharCfg} {b : Byte} (h : b ≠ c.flag) (y : ByteSequence) :
    charDestuff c (c.flag :: y ++ [b]) = .fail .malformedFrame (y.length + 2) := by
  simp [charDestuff, List.getLast?_cons, h]

/-- A sequence as the contract's checks take it apart: empty, a wrong first byte, one FLAG, a wrong last byte, or an
interior between two FLAGs (R160). -/
theorem frame_cases (c : CharCfg) {P : ByteSequence → Prop} (nil : P [])
    (badFirst : ∀ a t, a ≠ c.flag → P (a :: t)) (single : P [c.flag])
    (badLast : ∀ y b, b ≠ c.flag → P (c.flag :: y ++ [b])) (frame : ∀ y, P (c.flag :: y ++ [c.flag]))
    (s : ByteSequence) : P s := by
  cases s with
  | nil => exact nil
  | cons a t =>
    by_cases hfirst : a = c.flag
    · subst hfirst
      obtain rfl | ⟨y, b, rfl⟩ := List.eq_nil_or_concat t
      · exact single
      · rw [List.concat_eq_append, ← List.cons_append]
        by_cases hlast : b = c.flag
        · exact hlast ▸ frame y
        · exact badLast y b hlast
    · exact badFirst a t hfirst

/-- An interior is read as the contract's scan reads it: an unescaped FLAG or an ESC at the end stops the reading,
after an escape pair or a plain byte it goes on (R160). -/
theorem interior_induction (c : CharCfg) {P : ByteSequence → Prop} (nil : P []) (flag : ∀ y, P (c.flag :: y))
    (esc_last : P [c.esc]) (pair : ∀ b y, P y → P (c.esc :: b :: y))
    (plain : ∀ b y, b ≠ c.flag → b ≠ c.esc → P y → P (b :: y)) : ∀ y, P y
  | [] => nil
  | a :: y =>
    if hflag : a = c.flag then hflag ▸ flag y
    else if hesc : a = c.esc then
      match y with
      | [] => hesc ▸ esc_last
      | b :: y => hesc ▸ pair b y (interior_induction c nil flag esc_last pair plain y)
    else plain a y hflag hesc (interior_induction c nil flag esc_last pair plain y)

/-! ## The events compute the contract (R165) -/

/-- A lane at which END reports this result, the output before the transaction being `base`. -/
def Lane.EndReports (l : Lane CdRegs ByteBeat Byte) (base : List (OutEvent Byte)) : Result Byte → Prop
  | .ok x => cdEndReaction l.regs = closeOk .reset [] ∧ l.out = base ++ x.map .out
  | .fail k off => cdEndReaction l.regs = raise .reset k off

theorem Lane.endReports_ok {l : Lane CdRegs ByteBeat Byte} {base : List (OutEvent Byte)} {x : ByteSequence} :
    l.EndReports base (.ok x) ↔ cdEndReaction l.regs = closeOk .reset [] ∧ l.out = base ++ x.map .out := Iff.rfl
theorem Lane.endReports_fail {l : Lane CdRegs ByteBeat Byte} {base : List (OutEvent Byte)} {k : ErrKind}
    {off : Nat} : l.EndReports base (.fail k off) ↔ cdEndReaction l.regs = raise .reset k off := Iff.rfl

/-- The contract's check of the last byte: inside a frame whose last byte was no FLAG, END reports
MalformedFrame at the end, whatever was latched. -/
theorem cdEndReaction_of_missing_flag {r : CdRegs} (h : r.Legal) (hst : r.st ≠ .awaitFlag)
    (hlast : r.lastflag = false) : cdEndReaction r = raise .reset .malformedFrame r.idx := by
  cases herr : r.err with
  | mf => exact absurd (h.mf herr).2 hst
  | pv => exact cdEndReaction_of_pv_unclosed herr hlast
  | none =>
    refine cdEndReaction_of_not_done herr fun hdone => ?_
    simp [(h.done hdone herr).2] at hlast

/-- Inside the frame an escape pair emits its second byte (R161). -/
theorem cdSyms_pair {c : CharCfg} {l : Lane CdRegs ByteBeat Byte} (herr : l.regs.err = .none)
    (hst : l.regs.st = .inFrame) (b : Byte) (y : ByteSequence) : cdSyms c (c.esc :: b :: y) l =
      cdSyms c y (l.react (emit { l.regs with lastflag := lastFlagOf c b, idx := l.regs.idx + 2 } [b])) := by
  rw [cdSyms_cons, cdSymReaction_esc herr hst rfl, cdSyms_cons, cdSymReaction_escaped (by exact herr) rfl]
  simp [Lane.react, hst]

/-- After the closing FLAG more bytes, the last one FLAG, leave CD where END reports the violation. -/
theorem cdEndReaction_after_closing_flag {c : CharCfg} {l : Lane CdRegs ByteBeat Byte}
    (herr : l.regs.err = .none) (hst : l.regs.st = .done) (y : ByteSequence) :
    cdEndReaction (cdSyms c (y ++ [c.flag]) l).regs = raise .reset .protocolViolation l.regs.eoff := by
  obtain ⟨hpv, heoff⟩ := cdSyms_after_closing_flag (c := c) herr hst (ys := y ++ [c.flag]) (by simp)
  rw [cdEndReaction_of_pv_closed hpv (by simp [cdSyms_concat_lastflag, lastFlagOf]), heoff]

/-- Inside the frame, with `acc` copied so far, the rest of the interior and the closing FLAG leave CD where END
reports what the contract's scan goes on to. -/
theorem cdSyms_scanInterior {c : CharCfg} (hcfg : c.flag ≠ c.esc) {y acc : ByteSequence} {n : Nat}
    {l : Lane CdRegs ByteBeat Byte} {base : List (OutEvent Byte)} (herr : l.regs.err = .none)
    (hst : l.regs.st = .inFrame) (hn : n = l.regs.idx + y.length + 1) (hout : l.out = base ++ acc.map .out) :
    (cdSyms c (y ++ [c.flag]) l).EndReports base (scanInterior c n y l.regs.idx acc) := by
  induction y using interior_induction c generalizing l acc with
  | nil =>
    rw [List.nil_append, cdSyms_cons, cdSymReaction_closing_flag hcfg herr hst rfl]
    exact ⟨cdEndReaction_of_done herr rfl, by simp [hout]⟩
  | flag y =>
    rw [scanInterior_flag hcfg, List.cons_append, cdSyms_cons, cdSymReaction_closing_flag hcfg herr hst rfl]
    exact cdEndReaction_after_closing_flag (by exact herr) (by rfl) y
  | esc_last =>
    rw [scanInterior_esc_last, List.singleton_append, cdSyms_pair herr hst, hn]
    exact cdEndReaction_of_not_done herr (by simp [hst])
  | pair b y ih =>
    rw [scanInterior_pair, List.cons_append, List.cons_append, cdSyms_pair herr hst]
    exact ih (l := l.react (emit _ [b])) herr hst (by simp [hn]; omega) (by simp [hout])
  | plain b y hflag hesc ih =>
    rw [scanInterior_plain hflag hesc, List.cons_append, cdSyms_cons, cdSymReaction_plain herr hst hesc hflag]
    exact ih (l := l.react (emit _ [b])) herr hst (by simp [hn]; omega) (by simp [hout])

/-- From the reset registers the symbols leave CD where END reports the contract's result; the cases are the
contract's checks in order. -/
theorem cdSyms_charDestuff {c : CharCfg} (hcfg : c.flag ≠ c.esc) (s : ByteSequence)
    {l : Lane CdRegs ByteBeat Byte} (hreset : l.regs = .reset) :
    (cdSyms c s l).EndReports l.out (charDestuff c s) := by
  have herr : l.regs.err = .none := by rw [hreset]; rfl
  have hst : l.regs.st = .awaitFlag := by rw [hreset]; rfl
  have hidx : l.regs.idx = 0 := by rw [hreset]; rfl
  cases s using frame_cases c with
  | nil =>
    rw [charDestuff_nil, Lane.endReports_fail, cdSyms_nil, cdEndReaction_of_not_done herr (by simp [hst]), hidx]
  | badFirst a t hfirst =>
    rw [charDestuff_bad_first hfirst, Lane.endReports_fail, cdSyms_cons, cdSymReaction_no_leading_flag herr hst hfirst,
      cdSyms_of_err (by simp), cdEndReaction_of_mf rfl]
    simp [hidx]
  | single =>
    rw [charDestuff_single_flag, Lane.endReports_fail, cdSyms_cons, cdSymReaction_leading_flag herr hst rfl, cdSyms_nil,
      cdEndReaction_of_not_done (by exact herr) (by simp)]
    simp [hidx]
  | badLast y b hlast =>
    have hlegal : (cdSyms c (c.flag :: y ++ [b]) l).regs.Legal :=
      cdSyms_keeps (P := CdRegs.Legal) (fun v _ h => cdSymReaction_legal h c v) _ (hreset ▸ CdRegs.reset_legal)
    have hbegun : (cdSyms c (c.flag :: y ++ [b]) l).regs.st ≠ .awaitFlag := by
      rw [List.cons_append, cdSyms_cons, cdSymReaction_leading_flag herr hst rfl]
      exact cdSyms_keeps (P := (·.st ≠ .awaitFlag)) (fun v _ => cdSymReaction_st_ne_awaitFlag v) _ (by simp)
    have hopen : (cdSyms c (c.flag :: y ++ [b]) l).regs.lastflag = false := by
      simp [cdSyms_concat_lastflag, lastFlagOf, hlast]
    rw [charDestuff_bad_last hlast, Lane.endReports_fail, cdEndReaction_of_missing_flag hlegal hbegun hopen,
      cdSyms_idx, hidx]
    simp
  | frame y =>
    rw [charDestuff_frame, List.cons_append, cdSyms_cons, cdSymReaction_leading_flag herr hst rfl]
    have hscan := cdSyms_scanInterior hcfg (y := y) (acc := []) (n := y.length + 2) (base := l.out)
      (l := l.react (emit { l.regs with
        st := .inFrame, lastflag := lastFlagOf c c.flag, idx := l.regs.idx + 1 } [])) herr rfl
      (by simp [hidx]; omega) (by simp)
    simpa [hidx] using hscan

/-- A transaction of CD as one update of its unit. -/
theorem exec_charDestuff {s : State} (h : s.cdCfg.wf = true) (y : ByteSequence) : exec (.charDestuff y) s =
    .next (s.setCd ((cdSyms s.cdCfg y s.cd).react (cdEndReaction (cdSyms s.cdCfg y s.cd).regs))) := by
  have hfeed : feed execCdSym y s = .next (s.setCd (cdSyms s.cdCfg y s.cd)) :=
    (runEvents_map (fun _ _ => rfl) y s).symm.trans (runEvents_cdSym h y)
  exact (congrArg (andThen · execCdEnd) hfeed).trans (exec_cdEnd (s := s.setCd _) h)

/-- Settles O37: the symbols append `OUT` events only, and END reports the contract's result. -/
theorem charDestuffTransactionIsTheContract : Obligations.CharDestuffTransactionIsTheContract := by
  intro y s hcfg hreset
  have hreport := cdSyms_charDestuff hcfg y hreset
  obtain ⟨vs, hframe⟩ := cdSyms_frame s.cdCfg y s.cd
  have hout : (cdSyms s.cdCfg y s.cd).out = s.cd.out ++ vs.map .out := congrArg Lane.out hframe
  rw [exec_charDestuff ((CharCfg_wf_iff _).2 hcfg)]
  refine ⟨fun x hok => ?ok, fun k off hfail => ?fail⟩
  case ok =>
    rw [hok] at hreport
    obtain ⟨hend, hx⟩ := Lane.endReports_ok.1 hreport
    rw [hend, hframe, ← hout, hx]
    simp [State.setCd, Lane.react, hreset]
  case fail =>
    rw [hfail, Lane.endReports_fail] at hreport
    rw [hreport, hframe]
    exact ⟨vs, by simp [State.setCd, Lane.react, hreset]⟩

/-! ## Escapes that were not needed (R170) -/

theorem escapeBytes_append (c : CharCfg) (x y : ByteSequence) :
    escapeBytes c (x ++ y) = escapeBytes c x ++ escapeBytes c y := by
  simp [escapeBytes_eq_flatMap]

/-- The scan reads a byte as CS emits it as that byte (R160). -/
theorem scanInterior_escaped_append {c : CharCfg} {n : Nat} (v : Byte) (rest : ByteSequence) (i : Nat)
    (acc : ByteSequence) : scanInterior c n (escaped c v ++ rest) i acc =
      scanInterior c n rest (i + (escaped c v).length) (acc ++ [v]) := by
  rw [escaped_eq_ite]
  split
  case isTrue => exact scanInterior_pair v rest i acc
  case isFalse hplain =>
    obtain ⟨hflag, hesc⟩ := not_or.1 hplain
    exact scanInterior_plain hflag hesc rest i acc

/-- The scan reads the escaped form of `x` as `x` and goes on (R192). -/
theorem scanInterior_escapeBytes_append {c : CharCfg} {n : Nat} (x rest : ByteSequence) (i : Nat)
    (acc : ByteSequence) : scanInterior c n (escapeBytes c x ++ rest) i acc =
      scanInterior c n rest (i + (escapeBytes c x).length) (acc ++ x) := by
  induction x generalizing i acc with
  | nil => simp
  | cons v x ih =>
    rw [escapeBytes_cons, List.append_assoc, scanInterior_escaped_append, ih]
    simp [Nat.add_assoc]

theorem scanInterior_escapeBytes {c : CharCfg} {n : Nat} (x : ByteSequence) (i : Nat) (acc : ByteSequence) :
    scanInterior c n (escapeBytes c x) i acc = .ok (acc ++ x) := by
  simpa [scanInterior] using scanInterior_escapeBytes_append (c := c) (n := n) x [] i acc

theorem charDestuff_charStuff (c : CharCfg) (x : ByteSequence) : charDestuff c (charStuff c x) = .ok x :=
  (charDestuff_frame c (escapeBytes c x)).trans (scanInterior_escapeBytes x 1 [])

/-- Settles O53: the scan copies the second byte of any pair; a stuffed form of the same payload has one byte
less. -/
theorem needlessEscapeIsAcceptedNeverProduced : Obligations.NeedlessEscapeIsAcceptedNeverProduced := by
  intro c x y b _ hflag hesc
  have haccepted : charDestuff c (c.flag :: escapeBytes c x ++ [c.esc, b] ++ escapeBytes c y ++ [c.flag]) =
      .ok (x ++ b :: y) := by
    rw [List.cons_append, List.cons_append, charDestuff_frame, List.append_assoc,
      scanInterior_escapeBytes_append]
    exact (scanInterior_pair b _ _ _).trans ((scanInterior_escapeBytes y _ _).trans (by simp))
  refine ⟨haccepted, fun z hz => ?neverProduced, charDestuff_charStuff c⟩
  case neverProduced =>
    have hpayload : z = x ++ b :: y := by
      have hok := charDestuff_charStuff c z
      rw [hz, haccepted] at hok
      exact (Result.ok.inj hok).symm
    have hplain : escaped c b = [b] := by simp [escaped_eq_ite, hflag, hesc]
    have hlength := congrArg List.length hz
    simp [hpayload, charStuff, escapeBytes_append, escapeBytes_cons, hplain] at hlength

end Sys2Proof.Machine
end

section
/-! The laws of the frame-level functions (spec/44_laws.md R191 to R197, R201, R202): that destuffing undoes
stuffing, which runs of ones and which reserved bytes a stuffed form holds, its length, and what is
known before END. -/

namespace Sys2Proof.Machine

/-! ## Round trips (R191, R192) -/

theorem bitDestuff_bitStuff (x : BitSequence) : bitDestuff (bitStuff x) = .ok x :=
  (bitDestuff_eq_ok_iff _ x).2 rfl

/-- Settles O45: from counter 0 the destuffer copies what the stuffer has stuffed. -/
theorem bitRoundTrip : Obligations.BitRoundTrip := bitDestuff_bitStuff

/-- Settles O46: the scan reads each escaped byte as that byte. -/
theorem charRoundTrip : Obligations.CharRoundTrip := fun c x _ => charDestuff_charStuff c x

/-! ## Runs of ones in a bit-stuffed form (R193) -/

/-- The destuffer accepts a stuffed form, and it accepts no six ones and no five at the end. -/
theorem bitStuff_runs (x : BitSequence) : ¬ sixOnes <:+: bitStuff x ∧ onesRun (bitStuff x) ≠ 5 := by
  obtain ⟨haccepted, -⟩ := bitDestuffAcceptance (bitStuff x)
  exact haccepted.1 ⟨x, bitDestuff_bitStuff x⟩

theorem bitStuff_not_fiveOnes_suffix (x : BitSequence) : ¬ List.replicate 5 1#1 <:+ bitStuff x := by
  obtain ⟨hsix, hfive⟩ := bitStuff_runs x
  have hle := onesRun_le_of_no_sixOnes hsix
  rw [ones_suffix_iff]
  omega

/-- Five ones with no sixth one after them and not at the end have a zero after them. -/
theorem zero_after_five_ones {y : BitSequence} (hsix : ¬ sixOnes <:+: y) (hend : ¬ List.replicate 5 1#1 <:+ y)
    {i : Nat} (hones : (y.drop i).take 5 = List.replicate 5 1#1) : y[i + 5]? = some 0#1 := by
  cases hnext : y[i + 5]? with
  | none =>
    have hshort : (y.drop i).length ≤ 5 := by
      rw [List.length_drop]
      have := List.getElem?_eq_none_iff.1 hnext
      omega
    rw [List.take_of_length_le hshort] at hones
    exact absurd (hones ▸ List.drop_suffix i y) hend
  | some b =>
    obtain rfl | rfl := eq_zero_or_one b
    · rfl
    · refine absurd (infix_of_take_drop (m := i) (n := 6) ?_) hsix
      rw [List.take_add_one, hones, List.getElem?_drop, hnext]
      rfl

/-- Stuffing a sequence is stuffing its first part and going on with the counter that part leaves. -/
theorem bitStuff_append (x : BitSequence) : ∃ c, ∀ x', bitStuff (x ++ x') = bitStuff x ++ stuffBitsFrom x' c := by
  obtain ⟨r, y, -, hcontract⟩ := feed_bsSym_of_reset x (s := .reset) rfl
  have hy : bitStuff x = y := by simpa using hcontract []
  exact ⟨r.cnt.toNat, fun x' => hy ▸ hcontract x'⟩

/-- A run that stays below five is copied. -/
theorem stuffBitsFrom_short_run {k c : Nat} (h : c + k ≤ 4) :
    stuffBitsFrom (List.replicate k 1#1) c = List.replicate k 1#1 := by
  induction k generalizing c with
  | zero => rfl
  | succ k ih =>
    rw [List.replicate_succ, stuffBitsFrom_one _ (by omega), ih (by omega)]
    rfl

/-- Settles O47: the first three clauses from what the destuffer accepts; a short run after a zero is copied from
counter 0. -/
theorem bitStuffedFormHasNoLongRun : Obligations.BitStuffedFormHasNoLongRun := by
  refine ⟨fun x => (bitStuff_runs x).1, bitStuff_not_fiveOnes_suffix,
    fun x i => zero_after_five_ones (bitStuff_runs x).1 (bitStuff_not_fiveOnes_suffix x), fun x k hk => ?shortRun⟩
  case shortRun =>
    obtain ⟨c, hx⟩ := bitStuff_append x
    rw [hx, hx, stuffBitsFrom_zero, stuffBitsFrom_zero, stuffBitsFrom_short_run (by omega)]
    simp

/-! ## Length and image of the bit-stuffed form (R197) -/

theorem length_le_stuffBitsFrom (x : BitSequence) (c : Nat) : x.length ≤ (stuffBitsFrom x c).length := by
  induction x generalizing c with
  | nil => exact Nat.le_refl 0
  | cons b x ih =>
    obtain rfl | rfl := eq_zero_or_one b
    · exact Nat.succ_le_succ (ih 0)
    · by_cases hrun : c + 1 < 5
      · rw [stuffBitsFrom_one x hrun]
        exact Nat.succ_le_succ (ih (c + 1))
      · rw [stuffBitsFrom_fifth_one x hrun]
        exact Nat.succ_le_succ ((ih 0).trans (Nat.le_succ _))

/-- At most every fifth symbol costs a stuffing zero, the `c` ones before the sequence counted. -/
theorem stuffBitsFrom_length_le (x : BitSequence) {c : Nat} (hc : c < 5) :
    (stuffBitsFrom x c).length ≤ x.length + (x.length + c) / 5 := by
  induction x generalizing c with
  | nil => exact Nat.zero_le _
  | cons b x ih =>
    have hzero := ih (c := 0) (by omega)
    obtain rfl | rfl := eq_zero_or_one b
    · simp only [stuffBitsFrom_zero, List.length_cons]
      omega
    · by_cases hrun : c + 1 < 5
      · have hone := ih hrun
        simp only [stuffBitsFrom_one x hrun, List.length_cons]
        omega
      · simp only [stuffBitsFrom_fifth_one x hrun, List.length_cons]
        omega

/-- In a run of ones exactly every fifth one costs a stuffing zero. -/
theorem stuffBitsFrom_ones_length (n : Nat) {c : Nat} (hc : c < 5) :
    (stuffBitsFrom (List.replicate n 1#1) c).length = n + (n + c) / 5 := by
  induction n generalizing c with
  | zero => simp [Nat.div_eq_of_lt hc]
  | succ n ih =>
    rw [List.replicate_succ]
    by_cases hrun : c + 1 < 5
    · rw [stuffBitsFrom_one _ hrun, List.length_cons, ih hrun]
      omega
    · rw [stuffBitsFrom_fifth_one _ hrun, List.length_cons, List.length_cons, ih (by omega)]
      omega

/-- Settles O51: the lengths by the recursion with its counter, the image by `bitDestuff_eq_ok_iff`. -/
theorem bitLengthsAndImage : Obligations.BitLengthsAndImage :=
  ⟨fun x => ⟨length_le_stuffBitsFrom x 0, stuffBitsFrom_length_le x (c := 0) (by omega)⟩,
    fun n => stuffBitsFrom_ones_length n (c := 0) (by omega),
    fun y => exists_congr fun x => (bitDestuff_eq_ok_iff y x).symm,
    fun y x => (bitDestuff_eq_ok_iff y x).1, bitDestuff_bitStuff⟩

/-! ## The interior of a stuffed frame (R194, R195) -/

theorem charStuff_eq (c : CharCfg) (x : ByteSequence) : charStuff c x = c.flag :: escapeBytes c x ++ [c.flag] := rfl

@[simp] theorem interior_charStuff (c : CharCfg) (x : ByteSequence) : interior (charStuff c x) = escapeBytes c x := by
  simp [charStuff_eq, interior]

theorem noUnescaped_plain {c : CharCfg} {v : Byte} (hflag : v ≠ c.flag) (hesc : v ≠ c.esc) (y : ByteSequence) :
    noUnescaped c (v :: y) = noUnescaped c y := by
  cases y <;> simp [noUnescaped, hflag, hesc]

theorem noUnescaped_pair (c : CharCfg) (v : Byte) (y : ByteSequence) :
    noUnescaped c (c.esc :: v :: y) = noUnescaped c y := by simp [noUnescaped]

theorem noUnescaped_escapeBytes (c : CharCfg) (x : ByteSequence) : noUnescaped c (escapeBytes c x) = true := by
  induction x with
  | nil => rfl
  | cons v x ih =>
    rw [escapeBytes_cons, escaped_eq_ite]
    split
    case isTrue => exact (noUnescaped_pair c v _).trans ih
    case isFalse hplain =>
      obtain ⟨hflag, hesc⟩ := not_or.1 hplain
      exact (noUnescaped_plain hflag hesc _).trans ih

/-- Settles O48: each byte of the payload adds a plain byte or an escape pair. -/
theorem charStuffedInteriorIsEscaped : Obligations.CharStuffedInteriorIsEscaped := by
  intro c x _
  rw [interior_charStuff]
  exact noUnescaped_escapeBytes c x

/-- Settles O49, from the layout of the frame. -/
theorem charStuffStartsAndEndsWithFlag : Obligations.CharStuffStartsAndEndsWithFlag :=
  fun c x => ⟨rfl, by simp [charStuff_eq, List.getLast?_cons], by simp [charStuff_eq], rfl⟩

/-! ## The flag pattern in a bit-oriented frame (R196) -/

/-- Where a stretch without six ones and a zero after it begin a sequence, six ones begin only behind that zero. -/
theorem length_lt_of_sixOnes_prefix_drop {y r : BitSequence} {m : Nat} (hsix : ¬ sixOnes <:+: y)
    (h : sixOnes <+: (y ++ 0#1 :: r).drop m) : y.length < m := by
  by_contra! hm
  rw [List.drop_append_of_le_length hm] at h
  have hin : ¬ sixOnes <+: y.drop m := fun hp => hsix (hp.isInfix.trans (List.drop_suffix m y).isInfix)
  obtain hp | ⟨t, ht⟩ := List.prefix_or_prefix_of_prefix h (List.prefix_append _ _)
  · exact hin hp
  · cases t with
    | nil => exact hin (by simp [← ht])
    | cons b t =>
      have hone : b = 1#1 := List.eq_of_mem_replicate (ht ▸ List.mem_append_right _ List.mem_cons_self)
      rw [← ht, List.prefix_append_right_inj, List.cons_prefix_cons] at h
      exact absurd (hone.symm.trans h.1) (by decide)

/-- No zero stands within a run of ones. -/
theorem le_of_zero_prefix_drop_ones {n i : Nat} {t z : BitSequence}
    (h : 0#1 :: t <+: (List.replicate n 1#1 ++ z).drop i) : n ≤ i := by
  by_contra! hi
  obtain ⟨k, hk⟩ := Nat.exists_eq_succ_of_ne_zero (Nat.sub_ne_zero_of_lt hi)
  rw [List.drop_append_of_le_length (by simpa using hi.le), List.drop_replicate, hk, List.replicate_succ,
    List.cons_append, List.cons_prefix_cons] at h
  exact absurd h.1 (by decide)

/-- Between two flags a stretch without six ones: a flag begins only at the two ends. -/
theorem flag_prefix_drop_iff {y : BitSequence} (hsix : ¬ sixOnes <:+: y) (i : Nat) :
    Config.BITFLAG <+: (Config.BITFLAG ++ y ++ Config.BITFLAG).drop i ↔ i = 0 ∨ i = 8 + y.length := by
  constructor
  · intro h
    cases i with
    | zero => exact .inl rfl
    | succ j =>
      obtain ⟨k, rfl⟩ := Nat.exists_eq_add_of_le'
        (le_of_zero_prefix_drop_ones (n := 6) (z := 0#1 :: y ++ Config.BITFLAG) h)
      have hones : sixOnes <+: (y ++ Config.BITFLAG).drop k := by
        have htail := h.drop 1
        rw [List.drop_drop] at htail
        exact (List.prefix_append sixOnes [0#1]).trans htail
      have hpast : y.length < k := length_lt_of_sixOnes_prefix_drop hsix hones
      have hfits := h.length_le
      simp [Config.BITFLAG] at hfits
      omega
  · rintro (rfl | rfl)
    · exact (List.prefix_append _ _).trans (List.prefix_append _ _)
    · rw [List.drop_left' (by simp [Config.BITFLAG]; omega)]

/-- Settles O50: a stuffed form has no six ones, and its interior by R194. -/
theorem flagPatternOnlyAtTheEnds : Obligations.FlagPatternOnlyAtTheEnds := by
  refine ⟨fun x i => ?bits, charStuffedInteriorIsEscaped⟩
  rw [← flag_prefix_drop_iff (bitStuff_runs x).1, List.prefix_iff_eq_take, eq_comm]
  rfl

/-! ## What is known before END (R201, R202) -/

theorem bitStuff_prefix (x x' : BitSequence) : bitStuff x <+: bitStuff (x ++ x') := by
  obtain ⟨c, hx⟩ := bitStuff_append x
  exact hx x' ▸ List.prefix_append _ _

theorem charStuff_prefix (c : CharCfg) (x x' : ByteSequence) :
    c.flag :: escapeBytes c x <+: charStuff c (x ++ x') :=
  ⟨escapeBytes c x' ++ [c.flag], by simp [charStuff_eq, escapeBytes_append]⟩

/-- The SYM events of `x` emit its escaped form, and the first of them the leading FLAG, where it is due. -/
theorem runEvents_csSym {s : State} (h : s.csCfg.wf = true) (x : ByteSequence) :
    ∃ t, runEvents (x.map .csSym) s = .next t ∧ t.cs.out = s.cs.out ++
      ((if x = [] then [] else leadingFlag s.csCfg s.cs.regs) ++ escapeBytes s.csCfg x).map .out := by
  induction x generalizing s with
  | nil => exact ⟨s, rfl, by simp⟩
  | cons v x ih =>
    obtain ⟨t, ht, hout⟩ := ih (s := s.setCs (s.cs.react (csSymReaction s.csCfg v s.cs.regs))) h
    refine ⟨t, by rw [List.map_cons, runEvents, exec_csSym h, andThen_next, ht], ?_⟩
    simp [hout, csSymReaction, leadingFlag, escapeBytes_cons]

/-- Settles O54: what is emitted is the stuffed form so far, for CS without the trailing FLAG, and nothing before
the first symbol. -/
theorem stuffersDecideWithoutLookingAhead : Obligations.StuffersDecideWithoutLookingAhead := by
  refine ⟨fun x => ⟨bitStuff x, fun s hreset => ?bits, bitStuff_prefix x⟩, fun c x hcfg => ?bytes,
    bitStuff_prefix, fun c x x' => ?frame⟩
  case bits =>
    obtain ⟨r, y, hfeed, hcontract⟩ := feed_bsSym_of_reset x hreset
    have hy : bitStuff x = y := by simpa using hcontract []
    exact ⟨_, (runEvents_map (fun _ _ => rfl) x s).trans hfeed, hy ▸ rfl⟩
  case bytes =>
    refine ⟨(if x = [] then [] else [c.flag]) ++ escapeBytes c x, fun s hc hreset => ?emitted, fun x' => ?begins⟩
    case emitted =>
      subst hc
      have hflag : leadingFlag s.csCfg s.cs.regs = [s.csCfg.flag] := by rw [hreset]; rfl
      exact hflag ▸ runEvents_csSym ((CharCfg_wf_iff _).2 hcfg) x
    case begins =>
      split
      case isTrue hx => simp [hx]
      case isFalse => exact charStuff_prefix c x x'
  case frame =>
    rw [charStuff_eq c x, List.dropLast_concat]
    exact charStuff_prefix c x x'

/-- Settles O55: the bits by the contract's recursion; a FLAG inside the frame stops the scan, whatever follows it. -/
theorem destufferResultIsKnownOnlyAtEnd : Obligations.DestufferResultIsKnownOnlyAtEnd := by
  refine ⟨by decide, by decide, fun c b hcfg hflag hesc => ⟨?accepted, fun rest => ?rejected⟩⟩
  case accepted => exact (charDestuff_frame c [b]).trans (scanInterior_plain hflag hesc [] 1 [])
  case rejected =>
    exact (charDestuff_frame c (b :: c.flag :: rest)).trans
      ((scanInterior_plain hflag hesc _ 1 []).trans (scanInterior_flag hcfg rest 2 [b]))

end Sys2Proof.Machine
end

section
/-! Whole runs of the block (spec/44_laws.md R190, R199, R200): no step stops while the caller keeps its duty,
transactions in a row on one unit, and a stuffer connected to its destuffer. -/

namespace Sys2Proof.Machine

/-! ## No step stops (R190) -/

theorem forwardEvent_of_notAbort {α : Type} {e : OutEvent α} (h : notAbort e = true) :
    ∃ i, forwardEvent e = some i := by
  cases e with
  | out v => exact ⟨.sym v, rfl⟩
  | done => exact ⟨.fin, rfl⟩
  | abort k off => cases h

theorem csTurn_isSome {c : CharCfg} (h : c.wf = true) (l : Lane CsRegs ByteBeat Byte) :
    ∃ l', csTurn c l = some l' := by
  simp only [csTurn, h, if_true]
  split <;> exact ⟨_, rfl⟩

theorem cdTurn_isSome {c : CharCfg} (h : c.wf = true) (l : Lane CdRegs ByteBeat Byte) :
    ∃ l', cdTurn c l = some l' := by
  simp only [cdTurn, h, if_true]
  split <;> exact ⟨_, rfl⟩

/-- No stuffer's output holds an ABORT, so every oldest event can be forwarded (R215). -/
theorem connect_answers {s : State} (h : s.Inv) (k : Link) : ∃ t, connect k s = .next t := by
  cases k with
  | bits =>
    cases hout : s.bs.out with
    | nil => exact ⟨s, by simp [connect, hout]⟩
    | cons e es =>
      obtain ⟨i, hi⟩ := forwardEvent_of_notAbort (h.bsOut e (by simp [hout]))
      exact ⟨_, connect_bits_of_forward hout hi⟩
  | bytes =>
    cases hout : s.cs.out with
    | nil => exact ⟨s, by simp [connect, hout]⟩
    | cons e es =>
      obtain ⟨i, hi⟩ := forwardEvent_of_notAbort (h.csOut e (by simp [hout]))
      exact ⟨_, connect_bytes_of_forward hout hi⟩

theorem turnOutcome_answers {s : State} {p : Port} (hcs : p = .cs → s.csCfg.wf = true)
    (hcd : p = .cd → s.cdCfg.wf = true) : ∃ t, turnOutcome p s = .next t := by
  cases p with
  | bs => exact ⟨_, turnOutcome_bs s⟩
  | bd => exact ⟨_, turnOutcome_bd s⟩
  | cs =>
    obtain ⟨l, hl⟩ := csTurn_isSome (hcs rfl) s.cs
    exact ⟨_, by rw [turnOutcome_cs, hl]⟩
  | cd =>
    obtain ⟨l, hl⟩ := cdTurn_isSome (hcd rfl) s.cd
    exact ⟨_, by rw [turnOutcome_cd, hl]⟩

/-- Settles O30: of the turns only the character units', a connection and a change of the configuration can stop. -/
theorem noStepStopsWhileTheCallerKeepsItsDuty : Obligations.NoStepStopsWhileTheCallerKeepsItsDuty := by
  intro s hinv hduty
  cases hs : s.sched with
  | nil => exact ⟨s, step_idle hs⟩
  | cons a ts =>
    simp only [State.CallerKeepsCfg, hs] at hduty
    cases a with
    | unit p =>
      rw [step_of_unit hs]
      refine turnOutcome_answers ?_ ?_ <;> rintro rfl <;> exact hduty
    | connect k =>
      rw [step_of_turn hs]
      exact connect_answers (hinv.setSched ts) k
    | driveCsCfg c =>
      rw [step_of_turn hs]
      refine ⟨_, driveCsCfg_of_allowed (s := s.setSched ts) ?_⟩
      exact (Bool.eq_false_or_eq_true s.cs.regs.opened).symm.imp_right hduty
    | driveCdCfg c =>
      rw [step_of_turn hs]
      exact ⟨_, driveCdCfg_of_allowed (s := s.setSched ts) (or_iff_not_imp_left.2 hduty)⟩
    | send b => exact ⟨_, step_of_turn hs⟩
    | take p => exact ⟨_, step_of_turn hs⟩
    | driveRst p b => exact ⟨_, step_of_turn hs⟩
    | driveReady p b => exact ⟨_, step_of_turn hs⟩

/-! ## Transactions in a row (R200) -/

/-- What a consumer reads off the output of one transaction is its result (R14). -/
theorem ReportsResult.readResult_eq {α : Type} {es : List (OutEvent α)} {r : Result α} (h : ReportsResult es r) :
    readResult es = some (r, []) := by
  cases r with
  | ok x =>
    obtain rfl : es = _ := h
    obtain ⟨hdone, -⟩ := resultIsReadAtTheTerminator α x []
    exact hdone
  | fail k off =>
    obtain ⟨void, rfl⟩ := h
    obtain ⟨-, habort, -⟩ := resultIsReadAtTheTerminator α void []
    exact habort k off

/-- A unit whose every transaction, from a state `ready` for one, reports the contract's result and leaves such a
state, runs transactions in a row with the results in order. -/
theorem runEvents_transactions {α γ : Type} {ready : State → Prop} {out : State → List (OutEvent α)}
    {call : γ → Instr} {result : γ → Result α}
    (hcall : ∀ x s, ready s → ∃ t es, exec (call x) s = .next t ∧ ready t ∧ out t = out s ++ es ∧
      ReportsResult es (result x)) (xs : List γ) {s : State} (h : ready s) :
    ∃ t outs, runEvents (xs.map call) s = .next t ∧ ready t ∧ out t = out s ++ outs.flatten ∧
      List.Forall₂ (fun x es => readResult es = some (result x, [])) xs outs := by
  induction xs generalizing s with
  | nil => exact ⟨s, [], rfl, h, by simp, .nil⟩
  | cons x xs ih =>
    obtain ⟨t, es, hexec, ht, hout, hresult⟩ := hcall x s h
    obtain ⟨u, outs, hrun, hu, houts, hresults⟩ := ih ht
    refine ⟨u, es :: outs, ?_, hu, by simp [houts, hout], .cons hresult.readResult_eq hresults⟩
    rw [List.map_cons, runEvents, hexec, andThen_next, hrun]

theorem exec_bitDestuff_reports (y : BitSequence) {s : State} (h : s.bd.regs = .reset) :
    ∃ es, ReportsResult es (bitDestuff y) ∧
      exec (.bitDestuff y) s = .next (s.setBd { s.bd with out := s.bd.out ++ es }) := by
  obtain ⟨hok, hfail⟩ := bitDestuffTransactionIsTheContract y s h
  cases hr : bitDestuff y with
  | ok x => exact ⟨_, rfl, by rw [hok x hr, List.append_assoc]; rfl⟩
  | fail k off =>
    obtain ⟨void, hexec⟩ := hfail k off hr
    exact ⟨_, ⟨void, rfl⟩, by rw [hexec, List.append_assoc]; rfl⟩

theorem exec_charDestuff_reports (y : ByteSequence) {s : State} (hcfg : s.cdCfg.flag ≠ s.cdCfg.esc)
    (h : s.cd.regs = .reset) : ∃ es, ReportsResult es (charDestuff s.cdCfg y) ∧
      exec (.charDestuff y) s = .next (s.setCd { s.cd with out := s.cd.out ++ es }) := by
  obtain ⟨hok, hfail⟩ := charDestuffTransactionIsTheContract y s hcfg h
  cases hr : charDestuff s.cdCfg y with
  | ok x => exact ⟨_, rfl, by rw [hok x hr, List.append_assoc]; rfl⟩
  | fail k off =>
    obtain ⟨void, hexec⟩ := hfail k off hr
    exact ⟨_, ⟨void, rfl⟩, by rw [hexec, List.append_assoc]; rfl⟩

/-- Settles O41: each unit's transaction reports the contract's result and leaves the reset registers, and no
transaction changes a configuration. -/
theorem transactionsAreIndependent : Obligations.TransactionsAreIndependent := by
  intro s
  refine ⟨fun xs h => ?bs, fun ys h => ?bd, fun xs h hcfg => ?cs, fun ys h hcfg => ?cd⟩
  case bs =>
    refine runEvents_transactions (ready := (·.bs.regs = .reset)) (out := (·.bs.out)) (result := (.ok <| bitStuff ·))
      (fun x s h => ⟨_, _, bitStuffTransactionIsTheContract.1 x s h, h, List.append_assoc _ _ _, rfl⟩) xs h
  case bd =>
    refine runEvents_transactions (ready := (·.bd.regs = .reset)) (out := (·.bd.out)) (fun y s h => ?_) ys h
    obtain ⟨es, hreport, hexec⟩ := exec_bitDestuff_reports y h
    exact ⟨_, es, hexec, h, rfl, hreport⟩
  case cs =>
    refine (runEvents_transactions (ready := fun t => t.cs.regs = .reset ∧ t.csCfg = s.csCfg) (out := (·.cs.out))
      (result := (.ok <| charStuff s.csCfg ·)) (fun x t ht => ?_) xs ⟨h, rfl⟩).imp
        fun t ⟨outs, hrun, ht, hrest⟩ => ⟨outs, hrun, ht.1, hrest⟩
    obtain ⟨hreset, hc⟩ := ht
    rw [← hc] at hcfg ⊢
    exact ⟨_, _, charStuffTransactionIsTheContract.1 x t hcfg hreset, ⟨hreset, rfl⟩, List.append_assoc _ _ _, rfl⟩
  case cd =>
    refine (runEvents_transactions (ready := fun t => t.cd.regs = .reset ∧ t.cdCfg = s.cdCfg) (out := (·.cd.out))
      (result := charDestuff s.cdCfg) (fun y t ht => ?_) ys ⟨h, rfl⟩).imp
        fun t ⟨outs, hrun, ht, hrest⟩ => ⟨outs, hrun, ht.1, hrest⟩
    obtain ⟨hreset, hc⟩ := ht
    rw [← hc] at hcfg ⊢
    obtain ⟨es, hreport, hexec⟩ := exec_charDestuff_reports y hcfg hreset
    exact ⟨_, es, hexec, ⟨hreset, rfl⟩, rfl, hreport⟩

/-! ## A stuffer connected to its destuffer (R199) -/

theorem runSteps_trans {j k : Nat} {s t u : State} (hj : runSteps j s = .next t) (hk : runSteps k t = .next u) :
    runSteps (j + k) s = .next u := by
  induction j generalizing s with
  | zero =>
    cases hj
    rwa [Nat.zero_add]
  | succ j ih =>
    rw [runSteps_succ] at hj
    obtain ⟨s', hs', hj'⟩ := andThen_eq_next hj
    rw [Nat.succ_add, runSteps_succ, hs', andThen_next, ih hj']

/-- The output event that a connection forwards as this input event (`forwardEvent_asOutput`). -/
def asOutput {α : Type} : InEvent α → OutEvent α
  | .sym v => .out v
  | .fin => .done

theorem forwardEvent_asOutput {α : Type} (i : InEvent α) : forwardEvent (asOutput i) = some i := by
  cases i <;> rfl

/-- As many connection turns as a stuffer's output has events move them all; `put es ws` stands for an update of the
state with `es` on the stuffer's output and `ws` on the destuffer's input. -/
theorem runSteps_connect {α β : Type} {k : Link} {put : List (OutEvent α) → List β → State → State}
    {beat : InEvent α → β}
    (hmove : ∀ e i es ws s, forwardEvent e = some i →
      connect k (put (e :: es) ws s) = .next (put es (ws ++ [beat i]) s))
    (hsched : ∀ es ws s ts, (put es ws s).setSched ts = put es ws (s.setSched ts))
    (is : List (InEvent α)) (ws : List β) (s : State) (ts : List Turn) :
    runSteps is.length (put (is.map asOutput) ws (s.setSched (List.replicate is.length (.connect k) ++ ts))) =
      .next (put [] (ws ++ is.map beat) (s.setSched ts)) := by
  induction is generalizing ws with
  | nil =>
    rw [List.map_nil, List.map_nil, List.append_nil]
    rfl
  | cons i is ih =>
    have hstep : step (put (asOutput i :: is.map asOutput) ws
        (s.setSched (List.replicate (is.length + 1) (.connect k) ++ ts))) =
        .next (put (is.map asOutput) (ws ++ [beat i]) (s.setSched (List.replicate is.length (.connect k) ++ ts))) := by
      rw [← hsched]
      refine (step_of_turn (t := .connect k) rfl).trans ?_
      exact (congrArg _ (hsched _ _ _ _)).trans (hmove _ _ _ _ _ (forwardEvent_asOutput i))
    rw [List.length_cons, List.map_cons, runSteps_succ, hstep, andThen_next, ih]
    simp

/-- The state with these events on BS's output and these beats on BD's input. -/
def State.linkBits (es : List (OutEvent Bit)) (ws : List BitBeat) (s : State) : State :=
  { s with bs := { s.bs with out := es }, bd := { s.bd with inp := ws } }

/-- The state with these events on CS's output and these beats on CD's input. -/
def State.linkBytes (es : List (OutEvent Byte)) (ws : List ByteBeat) (s : State) : State :=
  { s with cs := { s.cs with out := es }, cd := { s.cd with inp := ws } }

/-- Connection turns move a closed stretch of BS's output to BD's input, as one transaction's beats. -/
theorem runSteps_connect_bits {y : BitSequence} {s : State} {ts : List Turn}
    (hout : s.bs.out = y.map .out ++ [.done])
    (hs : s.sched = List.replicate (y.length + 1) (.connect .bits) ++ ts) :
    runSteps (y.length + 1) s = .next { s with
      bs := { s.bs with out := [] }, bd := { s.bd with inp := s.bd.inp ++ bitBeats y }, sched := ts } := by
  have h := runSteps_connect (put := State.linkBits) (beat := encodeBitEvent)
    (fun _ _ _ _ _ hi => connect_bits_of_forward rfl hi) (fun _ _ _ _ => rfl) (y.map .sym ++ [.fin]) s.bd.inp s ts
  simpa [State.linkBits, bitBeats, Function.comp_def, asOutput, ← hout, ← hs, State.setSched] using h

/-- Connection turns move a closed stretch of CS's output to CD's input, as one transaction's beats. -/
theorem runSteps_connect_bytes {y : ByteSequence} {s : State} {ts : List Turn}
    (hout : s.cs.out = y.map .out ++ [.done])
    (hs : s.sched = List.replicate (y.length + 1) (.connect .bytes) ++ ts) :
    runSteps (y.length + 1) s = .next { s with
      cs := { s.cs with out := [] }, cd := { s.cd with inp := s.cd.inp ++ byteBeats y }, sched := ts } := by
  have h := runSteps_connect (put := State.linkBytes) (beat := encodeByteEvent)
    (fun _ _ _ _ _ hi => connect_bytes_of_forward rfl hi) (fun _ _ _ _ => rfl) (y.map .sym ++ [.fin]) s.cd.inp s ts
  simpa [State.linkBytes, byteBeats, Function.comp_def, asOutput, ← hout, ← hs, State.setSched] using h

/-- BS's turns on the beats of a payload append its stuffed form and DONE. -/
theorem runSteps_bitStuff {x : BitSequence} {s : State} {ts : List Turn} (hreset : s.bs.regs = .reset)
    (hrst : s.bs.rst = false) (hready : s.bs.ready = true) (hinp : s.bs.inp = bitBeats x)
    (hs : s.sched = List.replicate (x.length + 1) (.unit .bs) ++ ts) :
    runSteps (x.length + 1) s = .next { s with
      bs := { s.bs with inp := [], out := s.bs.out ++ (bitStuff x).map .out ++ [.done] }, sched := ts } := by
  obtain ⟨hbs, -⟩ := stepsOfAUnitRunTheTransaction s ts
  refine (hbs x [] hrst hready (by rw [hinp, List.append_nil]) hs).trans ?_
  exact bitStuffTransactionIsTheContract.1 x _ hreset

/-- BD's turns on the beats of an accepted sequence append the payload and DONE. -/
theorem runSteps_bitDestuff {y x : BitSequence} {s : State} {ts : List Turn} (hy : bitDestuff y = .ok x)
    (hreset : s.bd.regs = .reset) (hrst : s.bd.rst = false) (hready : s.bd.ready = true)
    (hinp : s.bd.inp = bitBeats y) (hs : s.sched = List.replicate (y.length + 1) (.unit .bd) ++ ts) :
    runSteps (y.length + 1) s = .next { s with
      bd := { s.bd with inp := [], out := s.bd.out ++ x.map .out ++ [.done] }, sched := ts } := by
  obtain ⟨-, hbd, -⟩ := stepsOfAUnitRunTheTransaction s ts
  refine (hbd y [] hrst hready (by rw [hinp, List.append_nil]) hs).trans ?_
  exact (bitDestuffTransactionIsTheContract y _ (by exact hreset)).1 x hy

/-- CS's turns on the beats of a payload append its frame and DONE. -/
theorem runSteps_charStuff {x : ByteSequence} {s : State} {ts : List Turn} (hcfg : s.csCfg.flag ≠ s.csCfg.esc)
    (hreset : s.cs.regs = .reset) (hrst : s.cs.rst = false) (hready : s.cs.ready = true)
    (hinp : s.cs.inp = byteBeats x) (hs : s.sched = List.replicate (x.length + 1) (.unit .cs) ++ ts) :
    runSteps (x.length + 1) s = .next { s with
      cs := { s.cs with inp := [], out := s.cs.out ++ (charStuff s.csCfg x).map .out ++ [.done] }, sched := ts } := by
  obtain ⟨-, -, hcs, -⟩ := stepsOfAUnitRunTheTransaction s ts
  refine (hcs x [] hrst hready (by rw [hinp, List.append_nil]) hs).trans ?_
  exact charStuffTransactionIsTheContract.1 x _ hcfg hreset

/-- CD's turns on the beats of an accepted frame append the payload and DONE. -/
theorem runSteps_charDestuff {y x : ByteSequence} {s : State} {ts : List Turn} (hcfg : s.cdCfg.flag ≠ s.cdCfg.esc)
    (hy : charDestuff s.cdCfg y = .ok x) (hreset : s.cd.regs = .reset) (hrst : s.cd.rst = false)
    (hready : s.cd.ready = true) (hinp : s.cd.inp = byteBeats y)
    (hs : s.sched = List.replicate (y.length + 1) (.unit .cd) ++ ts) :
    runSteps (y.length + 1) s = .next { s with
      cd := { s.cd with inp := [], out := s.cd.out ++ x.map .out ++ [.done] }, sched := ts } := by
  obtain ⟨-, -, -, hcd⟩ := stepsOfAUnitRunTheTransaction s ts
  refine (hcd y [] hrst hready (by rw [hinp, List.append_nil]) hs).trans ?_
  exact (charDestuffTransactionIsTheContract y _ (by exact hcfg) (by exact hreset)).1 x hy

/-- Settles O44: the stuffer's transaction, the connection and the destuffer's transaction one after the other; the
destuffer meets the stuffed form, whose result is the payload. -/
theorem connectedUnitsRecoverThePayload : Obligations.ConnectedUnitsRecoverThePayload := by
  intro s ts
  refine ⟨fun x m hm hbs hbsRst hbsReady hbsInp hbsOut hbd hbdRst hbdReady hbdInp hs => ?bits,
    fun x m hm hcfgs hcfg hcs hcsRst hcsReady hcsInp hcsOut hcd hcdRst hcdReady hcdInp hs => ?bytes⟩ <;>
    subst hm <;> rw [List.append_assoc, List.append_assoc] at hs
  case bits =>
    change runSteps _ s = .next _
    have hstuff := runSteps_bitStuff hbs hbsRst hbsReady hbsInp hs
    have hconnect := runSteps_trans hstuff (runSteps_connect_bits (by simp [hbsOut]) rfl)
    refine (runSteps_trans hconnect (runSteps_bitDestuff (bitRoundTrip x) ?_ ?_ ?_ ?_ rfl)).trans ?_
    · exact hbd
    · exact hbdRst
    · exact hbdReady
    · simp [hbdInp]
    · simp [hbsOut, hbdInp]
  case bytes =>
    change runSteps _ s = .next _
    have hstuff := runSteps_charStuff hcfg hcs hcsRst hcsReady hcsInp hs
    have hconnect := runSteps_trans hstuff (runSteps_connect_bytes (by simp [hcsOut]) rfl)
    refine (runSteps_trans hconnect (runSteps_charDestuff (x := x) ?_ ?_ ?_ ?_ ?_ ?_ rfl)).trans ?_
    · exact hcfgs ▸ hcfg
    · exact hcfgs ▸ charRoundTrip s.csCfg x hcfg
    · exact hcd
    · exact hcdRst
    · exact hcdReady
    · simp [hcdInp]
    · simp [hcsOut, hcdInp]

end Sys2Proof.Machine
end

section
/-! The exceptions' statements (spec/60_exceptions.md R213, R216, R222): the causes of failure in CD, the interior read
as items, and what ends a transaction. -/

namespace Sys2Proof.Machine

/-! ## The interior as items (R213, R216) -/

@[simp] theorem itemBytes_nil (c : CharCfg) : itemBytes c [] = [] := rfl
theorem itemBytes_cons (c : CharCfg) (it : Item) (its : List Item) :
    itemBytes c (it :: its) = it.bytes c ++ itemBytes c its := rfl

theorem Item.legal_plain_iff (c : CharCfg) (b : Byte) :
    (Item.plain b).legal c = true ↔ b ≠ c.flag ∧ b ≠ c.esc := by simp [Item.legal]
theorem Item.legal_pair (c : CharCfg) (b : Byte) : (Item.pair b).legal c = true := rfl

/-- The scan reads a legal item as its payload byte (R160). -/
theorem scanInterior_item_append {c : CharCfg} {n : Nat} {it : Item} (h : it.legal c = true) (rest : ByteSequence)
    (i : Nat) (acc : ByteSequence) : scanInterior c n (it.bytes c ++ rest) i acc =
      scanInterior c n rest (i + (it.bytes c).length) (acc ++ [it.payload]) := by
  cases it with
  | plain b =>
    obtain ⟨hflag, hesc⟩ := (Item.legal_plain_iff c b).1 h
    exact scanInterior_plain hflag hesc rest i acc
  | pair b => exact scanInterior_pair b rest i acc

/-- The scan reads legal items as their payload and goes on after them (R160). -/
theorem scanInterior_itemBytes_append {c : CharCfg} {n : Nat} {its : List Item}
    (h : ∀ it ∈ its, it.legal c = true) (rest : ByteSequence) (i : Nat) (acc : ByteSequence) :
    scanInterior c n (itemBytes c its ++ rest) i acc =
      scanInterior c n rest (i + (itemBytes c its).length) (acc ++ its.map Item.payload) := by
  induction its generalizing i acc with
  | nil => simp
  | cons it its ih =>
    obtain ⟨hit, hits⟩ := List.forall_mem_cons.1 h
    rw [itemBytes_cons, List.append_assoc, scanInterior_item_append hit, ih hits]
    simp [Nat.add_assoc]

/-- Between two FLAGs, legal items are read first, and what the scan makes of the rest is the result. -/
theorem charDestuff_items_frame {c : CharCfg} {its : List Item} (h : ∀ it ∈ its, it.legal c = true)
    (rest : ByteSequence) : charDestuff c (c.flag :: itemBytes c its ++ (rest ++ [c.flag])) =
      scanInterior c ((itemBytes c its ++ rest).length + 2) rest ((itemBytes c its).length + 1)
        (its.map Item.payload) := by
  rw [← List.append_assoc, List.cons_append, charDestuff_frame, scanInterior_itemBytes_append h, Nat.add_comm 1,
    List.nil_append]

/-- How the reading of an interior as legal items ends: with its last byte, at an unpaired ESC that is the last byte,
or at an unescaped FLAG (R213). -/
def ReadsAsItems (c : CharCfg) (y : ByteSequence) : Prop :=
  ∃ its, (∀ it ∈ its, it.legal c = true) ∧
    (y = itemBytes c its ∨ y = itemBytes c its ++ [c.esc] ∨ ∃ rest, y = itemBytes c its ++ c.flag :: rest)

/-- One more legal item in front is read first. -/
theorem ReadsAsItems.cons {c : CharCfg} {y : ByteSequence} (h : ReadsAsItems c y) {it : Item}
    (hit : it.legal c = true) : ReadsAsItems c (it.bytes c ++ y) := by
  obtain ⟨its, hits, hy⟩ := h
  refine ⟨it :: its, List.forall_mem_cons.2 ⟨hit, hits⟩, ?_⟩
  rw [itemBytes_cons]
  obtain rfl | rfl | ⟨rest, rfl⟩ := hy
  · exact .inl rfl
  · exact .inr (.inl (List.append_assoc ..).symm)
  · exact .inr (.inr ⟨rest, (List.append_assoc ..).symm⟩)

theorem readsAsItems (c : CharCfg) (y : ByteSequence) : ReadsAsItems c y := by
  induction y using interior_induction c with
  | nil => exact ⟨[], by simp, .inl rfl⟩
  | flag y => exact ⟨[], by simp, .inr (.inr ⟨y, rfl⟩)⟩
  | esc_last => exact ⟨[], by simp, .inr (.inl rfl)⟩
  | pair b y ih => exact ih.cons (Item.legal_pair c b)
  | plain b y hflag hesc ih => exact ih.cons ((Item.legal_plain_iff c b).2 ⟨hflag, hesc⟩)

/-- Settles O58: the delimiter checks are the contract's own cases, and between two FLAGs the scan passes over the
items to what stops it. -/
theorem cdCausesInOrder : Obligations.CdCausesInOrder := by
  intro c hcfg
  refine ⟨charDestuff_nil c, fun a s h => charDestuff_bad_first h s, charDestuff_single_flag c,
    fun s b h => charDestuff_bad_last h s, fun its h => ?accepted, fun its h => ?unpairedEsc,
    fun its rest h => ?unescapedFlag, readsAsItems c⟩
  case accepted => exact charDestuff_items_frame h []
  case unpairedEsc =>
    refine (charDestuff_items_frame h [c.esc]).trans ((scanInterior_esc_last _ _).trans ?_)
    simp
  case unescapedFlag =>
    rw [List.append_assoc]
    exact (charDestuff_items_frame h (c.flag :: rest)).trans (scanInterior_flag hcfg rest _ _)

/-! ## What ends a transaction (R222) -/

/-- The registers of unit `p` mark an open transaction (R25, R28, R30); none of BS's does. -/
def State.inTransaction (s : State) : Port → Bool
  | .bs => false
  | .bd => s.bd.regs.idx != 0
  | .cs => s.cs.regs.inTransaction
  | .cd => s.cd.regs.inTransaction

/-- The oldest beat on the input of unit `p` is END. -/
def State.EndIsNext (s : State) : Port → Prop
  | .bs => ∃ w ws, s.bs.inp = w :: ws ∧ decodeBeat (.bs w) = .bsEnd
  | .bd => ∃ w ws, s.bd.inp = w :: ws ∧ decodeBeat (.bd w) = .bdEnd
  | .cs => ∃ w ws, s.cs.inp = w :: ws ∧ decodeBeat (.cs w) = .csEnd
  | .cd => ∃ w ws, s.cd.inp = w :: ws ∧ decodeBeat (.cd w) = .cdEnd

theorem bdTurn_closes {l : Lane BdRegs BitBeat Bit} (hopen : l.regs.idx ≠ 0) (hclosed : (bdTurn l).regs.idx = 0) :
    ∃ w ws, l.inp = w :: ws ∧ decodeBeat (.bd w) = .bdEnd := by
  simp only [bdTurn] at hclosed
  split at hclosed
  · exact absurd hclosed hopen
  · next w l' hf =>
    obtain ⟨-, -, hinp, -⟩ := Lane.fetch_eq_some hf
    split at hclosed
    · simp at hclosed
    · next hfin => exact ⟨w, l'.inp, hinp, by simp [decodeBeat, hfin]⟩

theorem csTurn_closes {c : CharCfg} {l l' : Lane CsRegs ByteBeat Byte} (ht : csTurn c l = some l')
    (hopen : l.regs.opened = true) (hclosed : l'.regs.opened = false) :
    ∃ w ws, l.inp = w :: ws ∧ decodeBeat (.cs w) = .csEnd := by
  simp only [csTurn] at ht
  split at ht
  · cases ht
    simp [hopen] at hclosed
  · next w l₁ hf =>
    obtain ⟨-, -, hinp, -⟩ := Lane.fetch_eq_some hf
    split at ht
    · cases ht
      split at hclosed
      · simp [csSymReaction] at hclosed
      · next hfin => exact ⟨w, l₁.inp, hinp, by simp [decodeBeat, hfin]⟩
    · cases ht

theorem cdTurn_closes {c : CharCfg} {l l' : Lane CdRegs ByteBeat Byte} (ht : cdTurn c l = some l')
    (hopen : l.regs.idx ≠ 0) (hclosed : l'.regs.idx = 0) :
    ∃ w ws, l.inp = w :: ws ∧ decodeBeat (.cd w) = .cdEnd := by
  simp only [cdTurn] at ht
  split at ht
  · cases ht
    exact absurd hclosed hopen
  · next w l₁ hf =>
    obtain ⟨-, -, hinp, -⟩ := Lane.fetch_eq_some hf
    split at ht
    · cases ht
      split at hclosed
      · simp at hclosed
      · next hfin => exact ⟨w, l₁.inp, hinp, by simp [decodeBeat, hfin]⟩
    · cases ht

section
variable {s t : State}

/-- A unit's turn closes no transaction but its own, and that by END. -/
theorem turnOutcome_closes {p q : Port} (ht : turnOutcome p s = .next t) (hopen : s.inTransaction q = true)
    (hclosed : t.inTransaction q = false) : q = p ∧ s.EndIsNext p := by
  cases p with
  | bs =>
    rw [turnOutcome_bs] at ht
    cases ht
    cases q <;> exact absurd hopen (Bool.eq_false_iff.1 hclosed)
  | bd =>
    rw [turnOutcome_bd] at ht
    cases ht
    cases q with
    | bd => exact ⟨rfl, bdTurn_closes (bne_iff_ne.1 hopen) (bne_eq_false_iff_eq.1 hclosed)⟩
    | bs | cs | cd => exact absurd hopen (Bool.eq_false_iff.1 hclosed)
  | cs =>
    obtain ⟨l, hl, rfl⟩ := turnOutcome_cs_eq_next ht
    cases q with
    | cs => exact ⟨rfl, csTurn_closes hl hopen hclosed⟩
    | bs | bd | cd => exact absurd hopen (Bool.eq_false_iff.1 hclosed)
  | cd =>
    obtain ⟨l, hl, rfl⟩ := turnOutcome_cd_eq_next ht
    cases q with
    | cd => exact ⟨rfl, cdTurn_closes hl (bne_iff_ne.1 hopen) (bne_eq_false_iff_eq.1 hclosed)⟩
    | bs | bd | cs => exact absurd hopen (Bool.eq_false_iff.1 hclosed)

/-- Asserting a unit's reset input clears its mark; nothing else about a reset input touches a mark. -/
theorem driveRst_inTransaction (p q : Port) (b : Bool) (s : State) :
    (driveRst p b s).inTransaction q = if q = p ∧ b = true then false else s.inTransaction q := by
  cases p <;> cases q <;> cases b <;> rfl

theorem setSched_inTransaction (s : State) (ts : List Turn) : (s.setSched ts).inTransaction = s.inTransaction := by
  funext q
  cases q <;> rfl

theorem setSched_endIsNext (s : State) (ts : List Turn) : (s.setSched ts).EndIsNext = s.EndIsNext := by
  funext q
  cases q <;> rfl

theorem deliver_inTransaction (b : PortBeat) (s : State) : (deliver b s).inTransaction = s.inTransaction := by
  funext q
  cases b <;> cases q <;> rfl

theorem takeOut_inTransaction (p : Port) (s : State) : (takeOut p s).inTransaction = s.inTransaction := by
  funext q
  cases p <;> cases q <;> rfl

theorem driveReady_inTransaction (p : Port) (b : Bool) (s : State) :
    (driveReady p b s).inTransaction = s.inTransaction := by
  funext q
  cases p <;> cases q <;> rfl

theorem connect_inTransaction {k : Link} (ht : connect k s = .next t) : t.inTransaction = s.inTransaction := by
  funext q
  obtain rfl | ⟨w, rfl⟩ | ⟨w, rfl⟩ := connect_eq_next ht <;> cases q <;> rfl

/-- A step is a unit's turn, or it drives a reset input, or it leaves every unit's mark of an open transaction. -/
theorem step_inTransaction_cases (ht : step s = .next t) :
    (∃ p ts, s.sched = .unit p :: ts ∧ turnOutcome p (s.setSched ts) = .next t) ∨
    (∃ p b ts, s.sched = .driveRst p b :: ts ∧ t = driveRst p b (s.setSched ts)) ∨
    t.inTransaction = s.inTransaction := by
  cases hs : s.sched with
  | nil =>
    rw [step_idle hs] at ht
    cases ht
    exact .inr (.inr rfl)
  | cons a ts =>
    rw [← setSched_inTransaction s ts]
    cases a with
    | unit p => exact .inl ⟨p, ts, rfl, (step_of_unit hs).symm.trans ht⟩
    | driveRst p b =>
      rw [step_of_turn hs] at ht
      cases ht
      exact .inr (.inl ⟨p, b, ts, rfl, rfl⟩)
    | send b =>
      rw [step_of_turn hs] at ht
      cases ht
      exact .inr (.inr (deliver_inTransaction b _))
    | take p =>
      rw [step_of_turn hs] at ht
      cases ht
      exact .inr (.inr (takeOut_inTransaction p _))
    | driveReady p b =>
      rw [step_of_turn hs] at ht
      cases ht
      exact .inr (.inr (driveReady_inTransaction p b _))
    | connect k =>
      have hconnect : connect k (s.setSched ts) = .next t := (step_of_turn hs).symm.trans ht
      exact .inr (.inr (connect_inTransaction hconnect))
    | driveCsCfg c =>
      rw [step_of_turn hs] at ht
      rw [driveCsCfg_eq_next ht]
      exact .inr (.inr rfl)
    | driveCdCfg c =>
      rw [step_of_turn hs] at ht
      rw [driveCdCfg_eq_next ht]
      exact .inr (.inr rfl)

/-- R222 for every unit: the step that closes a transaction ran the unit's END or asserted its reset input. -/
theorem step_closes {p : Port} (ht : step s = .next t) (hopen : s.inTransaction p = true)
    (hclosed : t.inTransaction p = false) :
    (∃ ts, s.sched = .unit p :: ts ∧ s.EndIsNext p) ∨ ∃ ts, s.sched = .driveRst p true :: ts := by
  obtain ⟨q, ts, hs, hturn⟩ | ⟨q, b, ts, hs, rfl⟩ | hkept := step_inTransaction_cases ht
  · rw [← setSched_inTransaction s ts] at hopen
    obtain ⟨rfl, hend⟩ := turnOutcome_closes hturn hopen hclosed
    exact .inl ⟨ts, hs, setSched_endIsNext s ts ▸ hend⟩
  · rw [driveRst_inTransaction, setSched_inTransaction] at hclosed
    split at hclosed
    case isTrue hreset =>
      obtain ⟨rfl, rfl⟩ := hreset
      exact .inr ⟨ts, hs⟩
    case isFalse => exact absurd hopen (Bool.eq_false_iff.1 hclosed)
  · exact absurd hopen (Bool.eq_false_iff.1 (hkept ▸ hclosed))

end

/-- Settles O31: `step_closes` for each unit whose registers mark its open transaction. -/
theorem onlyEndAndResetEndATransaction : Obligations.OnlyEndAndResetEndATransaction := by
  intro s t ht
  refine ⟨fun hopen hclosed => ?bd, fun hopen hclosed => ?cs, fun hopen hclosed => ?cd⟩
  case bd =>
    refine (step_closes (p := .bd) ht (bne_iff_ne.2 hopen) (bne_eq_false_iff_eq.2 hclosed)).imp_left ?_
    exact fun ⟨ts, hs, w, ws, hinp, hend⟩ => ⟨w, ws, ts, hs, hinp, hend⟩
  case cs =>
    refine (step_closes (p := .cs) ht hopen hclosed).imp_left ?_
    exact fun ⟨ts, hs, w, ws, hinp, hend⟩ => ⟨w, ws, ts, hs, hinp, hend⟩
  case cd =>
    refine (step_closes (p := .cd) ht (bne_iff_ne.2 hopen) (bne_eq_false_iff_eq.2 hclosed)).imp_left ?_
    exact fun ⟨ts, hs, w, ws, hinp, hend⟩ => ⟨w, ws, ts, hs, hinp, hend⟩

end Sys2Proof.Machine
end

section
/-! Reset and hazards (spec/70_reset_and_hazards.md R240, R241, R247; spec/93_implementation_defined.md U1): what
driving a unit's reset input does, and the refusal of a configuration whose FLAG equals its ESC. -/

namespace Sys2Proof.Machine

/-! ## The reset input (R240, R241) -/

/-- The caller's turn at a reset input always answers, with the input driven. -/
theorem step_of_driveRst {s : State} {p : Port} {b : Bool} {ts : List Turn}
    (hs : s.sched = .driveRst p b :: ts) : step s = .next (driveRst p b (s.setSched ts)) :=
  step_of_turn hs

/-- A release writes no register: a held unit's registers have their reset values already. -/
theorem Lane.HeldReset.driveRst_false {ρ β α : Type} {init : ρ} {l : Lane ρ β α} (h : l.HeldReset init)
    (hrst : l.rst = true) : l.driveRst init false = { l with regs := init, rst := false } := by
  rw [← h hrst]
  rfl

/-- Settles O15: driving the reset input is one update of its unit, and asserted it writes the reset registers. -/
theorem assertedResetAbandonsTheTransaction : Obligations.AssertedResetAbandonsTheTransaction := fun _ _ =>
  ⟨step_of_driveRst, step_of_driveRst, step_of_driveRst, step_of_driveRst⟩

/-- Settles O16: an asserted reset is a reason to wait (`unitWaitsWithoutChange`), and the invariant holds the
registers of a waiting unit at the values its release must show. -/
theorem releasedUnitIsInItsResetState : Obligations.ReleasedUnitIsInItsResetState := by
  intro s ts hinv
  obtain ⟨bsWaits, bdWaits, csWaits, cdWaits, -⟩ := unitWaitsWithoutChange s ts
  refine ⟨fun hrst => ⟨fun hs => bsWaits hs (.inl hrst), fun hs => ?bs⟩,
    fun hrst => ⟨fun hs => bdWaits hs (.inl hrst), fun hs => ?bd⟩,
    fun hrst => ⟨fun hs => csWaits hs (.inl hrst), fun hs => ?cs⟩,
    fun hrst => ⟨fun hs => cdWaits hs (.inl hrst), fun hs => ?cd⟩⟩ <;>
    refine (step_of_driveRst hs).trans ?_
  case bs => exact congrArg (Host.Outcome.next <| (s.setSched ts).setBs ·) (hinv.bsHeld.driveRst_false hrst)
  case bd => exact congrArg (Host.Outcome.next <| (s.setSched ts).setBd ·) (hinv.bdHeld.driveRst_false hrst)
  case cs => exact congrArg (Host.Outcome.next <| (s.setSched ts).setCs ·) (hinv.csHeld.driveRst_false hrst)
  case cd => exact congrArg (Host.Outcome.next <| (s.setSched ts).setCd ·) (hinv.cdHeld.driveRst_false hrst)

/-! ## FLAG equal to ESC (R247, U1) -/

theorem withDistinctCfg_of_flag_eq_esc {c : CharCfg} (h : c.flag = c.esc) (o : Outcome) :
    withDistinctCfg c o = .refused .flagEqualsEsc :=
  if_neg fun hwf => (CharCfg_wf_iff c).1 hwf h

/-- A transaction whose every event is refused is refused at its first one: a symbol, or END if it has none. -/
theorem transact_refused {α : Type} {sym : α → State → Outcome} {fin : State → Outcome} {s : State}
    {r : Refusal} (hsym : ∀ v, sym v s = .refused r) (hfin : fin s = .refused r) (xs : List α) :
    transact sym fin xs s = .refused r := by
  cases xs with
  | nil => exact hfin
  | cons v vs => rw [transact, feed_cons, hsym, andThen_refused, andThen_refused]

/-- Settles O25: each event of a character unit is guarded by its configuration, and its transaction is refused
with them. -/
theorem equalFlagAndEscapeAreRefused : Obligations.EqualFlagAndEscapeAreRefused := by
  intro s
  refine ⟨fun hcfg => ?cs, fun hcfg => ?cd⟩
  case cs =>
    have hsym : ∀ v, execCsSym v s = .refused .flagEqualsEsc := fun _ => withDistinctCfg_of_flag_eq_esc hcfg _
    have hend : execCsEnd s = .refused .flagEqualsEsc := withDistinctCfg_of_flag_eq_esc hcfg _
    exact ⟨hsym, hend, transact_refused hsym hend⟩
  case cd =>
    have hsym : ∀ v, execCdSym v s = .refused .flagEqualsEsc := fun _ => withDistinctCfg_of_flag_eq_esc hcfg _
    have hend : execCdEnd s = .refused .flagEqualsEsc := withDistinctCfg_of_flag_eq_esc hcfg _
    exact ⟨hsym, hend, transact_refused hsym hend⟩

end Sys2Proof.Machine
end
